-- ==== Sys2Proof/Word.lean ====
section
/-! DEFINITION. The widths of the machine's quantities (R5, R8): cells of 16 bits, numbers of 15 bits, eight
registers, a program counter of 16 bits. All are unsigned (R7). -/

namespace Sys2Proof

/-- `Cell` (R8, R50): one 16-bit unit of memory or of the instruction stream. -/
abbrev Cell := BitVec 16

/-- `Number` (R8): 0 .. 32767, the only values a register or a stack entry holds. `Addr` of R8 is the same set. -/
abbrev Number := BitVec 15

/-- `RegIndex` (R8, R21): 0 .. 7. -/
abbrev Reg := Fin 8

/-- `Pc` (R8, R26): 16 bits, of which 0 .. 32768 are legal values. -/
abbrev Pc := BitVec 16

/-- One byte of the image file or of the console (R54, R66): never a unit inside the machine. -/
abbrev Byte := BitVec 8

end Sys2Proof
end

