-- ==== Sys2Proof/Config.lean ====
section
/-! DEFINITION. The fixed parameters (R5), the open parameters (R6) and the two values the spec leaves to the host
(U6, U10), which no definition gives. -/

namespace Sys2Proof

/-- `MEM_CELLS` (R5): addresses are 0 .. 32767. The same number is the modulus of add and mult (R157). -/
def memCells : Nat := 32768

/-- `REG_BASE` (R5): the operand value that names R0. -/
def regBase : Nat := 32768

/-- `INVALID_BASE` (R5): the smallest invalid operand value. -/
def invalidBase : Nat := 32776

/-- The open parameters of R6 that are no stream: plain data, with the spec's defaults. -/
structure Config where
  /-- `STACK_DEPTH`: `none` is the spec's "unbounded" (R29). -/
  stackDepth : Option Nat := none
  /-- `IN_MAX`: the largest value the input port may deliver (R43). -/
  inMax : Number := 255#15
  /-- `HOST_CAN_FAIL`: whether the host may answer `failed` (R42, R43). -/
  hostCanFail : Bool := true
deriving DecidableEq, Repr

/-- The bytes the host writes for an `out` value above 127. U6: "fixed only as `render(v) = [v]` for `v <= 127`". -/
opaque Config.renderHigh : Number → List Byte

/-- The host's non-zero exit code for a fault code, less one. U10: "`parameter` of the host, 1..255". -/
opaque Config.exitCodeLessOne : BitVec 8 → Fin 255

end Sys2Proof
end

