-- ==== Sys2Proof/Syntax.lean ====
section
/-! DEFINITION. Operands and instructions: one constructor of `Instr` per row of spec/opcode_table.json (R83). -/

namespace Sys2Proof

/-- What an operand cell stands for: R82's "sum type {Number(u15), Register(u3), Invalid}". -/
inductive Operand where
  | number (n : Number)
  | register (i : Reg)
  | invalid (x : Cell)
deriving DecidableEq, Repr

/-- The two operand kinds of a shape (R12): destination and source. -/
inductive Kind where
  | dst
  | src
deriving DecidableEq, Repr

/-- The 22 instructions, operands in cell order. After decoding, a destination is a register index and a source is
still a number or a register reference (R89); `Instr.wf` (WellFormed.lean) says the latter. -/
inductive Instr where
  | halt
  | set (d : Reg) (b : Operand)
  | push (a : Operand)
  | pop (d : Reg)
  | eq (d : Reg) (b c : Operand)
  | gt (d : Reg) (b c : Operand)
  | jmp (a : Operand)
  | jt (a b : Operand)
  | jf (a b : Operand)
  | add (d : Reg) (b c : Operand)
  | mult (d : Reg) (b c : Operand)
  | mod (d : Reg) (b c : Operand)
  | and (d : Reg) (b c : Operand)
  | or (d : Reg) (b c : Operand)
  | not (d : Reg) (b : Operand)
  | rmem (d : Reg) (b : Operand)
  | wmem (a b : Operand)
  | call (a : Operand)
  | ret
  | out (a : Operand)
  | inp (d : Reg)
  | noop
deriving DecidableEq, Repr

end Sys2Proof
end

