-- ==== Sys2Proof/WellFormed.lean ====
section
/-! DEFINITION. A decoded instruction has no invalid source operand: R87 rejects one before the instruction does
anything. (A destination is a register index by its type, R88.) -/

namespace Sys2Proof

/-- A source position accepts a number or a register reference (R82). -/
def Operand.wf : Operand → Bool
  | .number _ => true
  | .register _ => true
  | .invalid _ => false

/-- Every source operand of the instruction is acceptable. -/
def Instr.wf : Instr → Bool
  | .halt => true
  | .set _ b => b.wf
  | .push a => a.wf
  | .pop _ => true
  | .eq _ b c => b.wf && c.wf
  | .gt _ b c => b.wf && c.wf
  | .jmp a => a.wf
  | .jt a b => a.wf && b.wf
  | .jf a b => a.wf && b.wf
  | .add _ b c => b.wf && c.wf
  | .mult _ b c => b.wf && c.wf
  | .mod _ b c => b.wf && c.wf
  | .and _ b c => b.wf && c.wf
  | .or _ b c => b.wf && c.wf
  | .not _ b => b.wf
  | .rmem _ b => b.wf
  | .wmem a b => a.wf && b.wf
  | .call a => a.wf
  | .ret => true
  | .out a => a.wf
  | .inp _ => true
  | .noop => true

end Sys2Proof
end

