-- ==== Sys2Proof/Decode.lean ====
section
/-! DEFINITION. The decoder, total on any list of cells and rejecting by name (R80 to R94), and after it the encoder,
written from the same table (R83). -/

namespace Sys2Proof

/-- The register a register reference names: `i = x - 32768` (R82). -/
def refReg (x : Cell) : Reg := ⟨(x.toNat - regBase) % 8, Nat.mod_lt _ (by decide)⟩

/-- The resolver's classification of an operand cell, by its value only (R82). -/
def classify (x : Cell) : Operand :=
  if x.toNat < regBase then .number (x.setWidth 15)
  else if x.toNat < invalidBase then .register (refReg x)
  else .invalid x

/-- Why a sequence of cells is no instruction (R92), or ends too soon (R84: the next cell would be cell 32768). -/
inductive DecodeFault where
  | outOfCells
  | illegalOpcode (x : Cell)
  | invalidOperand (x : Cell)
  | invalidDestination (x : Cell)
deriving DecidableEq, Repr

/-- A rejection: its reason, and how many cells had been fetched when it was met, the offending cell included (R90). -/
structure Reject where
  why : DecodeFault
  used : Nat
deriving DecidableEq, Repr

/-- `FetchS` (R87) on the cell at offset `k` from the opcode. -/
def srcAt (cells : List Cell) (k : Nat) : Except Reject Operand :=
  match cells[k]? with
  | none => .error ⟨.outOfCells, k⟩
  | some x =>
    match classify x with
    | .number n => .ok (.number n)
    | .register i => .ok (.register i)
    | .invalid _ => .error ⟨.invalidOperand x, k + 1⟩

/-- `FetchD` (R88), that is `Target` (R86), on the cell at offset `k` from the opcode. -/
def dstAt (cells : List Cell) (k : Nat) : Except Reject Reg :=
  match cells[k]? with
  | none => .error ⟨.outOfCells, k⟩
  | some x =>
    match classify x with
    | .number _ => .error ⟨.invalidDestination x, k + 1⟩
    | .register i => .ok i
    | .invalid _ => .error ⟨.invalidDestination x, k + 1⟩

/-- Format `FS` (R80). -/
def decodeFS (mk : Operand → Instr) (cells : List Cell) : Except Reject Instr := do
  let a ← srcAt cells 1
  return mk a

/-- Format `FD` (R80). -/
def decodeFD (mk : Reg → Instr) (cells : List Cell) : Except Reject Instr := do
  let d ← dstAt cells 1
  return mk d

/-- Format `FDS` (R80). -/
def decodeFDS (mk : Reg → Operand → Instr) (cells : List Cell) : Except Reject Instr := do
  let d ← dstAt cells 1
  let b ← srcAt cells 2
  return mk d b

/-- Format `FSS` (R80). -/
def decodeFSS (mk : Operand → Operand → Instr) (cells : List Cell) : Except Reject Instr := do
  let a ← srcAt cells 1
  let b ← srcAt cells 2
  return mk a b

/-- Format `FDSS` (R80). -/
def decodeFDSS (mk : Reg → Operand → Operand → Instr) (cells : List Cell) : Except Reject Instr := do
  let d ← dstAt cells 1
  let b ← srcAt cells 2
  let c ← srcAt cells 3
  return mk d b c

/-- The opcode map (R83) over the whole value of the opcode cell (R81). -/
def decodeOp (op : Cell) (cells : List Cell) : Except Reject Instr :=
  match op.toNat with
  | 0 => .ok .halt
  | 1 => decodeFDS .set cells
  | 2 => decodeFS .push cells
  | 3 => decodeFD .pop cells
  | 4 => decodeFDSS .eq cells
  | 5 => decodeFDSS .gt cells
  | 6 => decodeFS .jmp cells
  | 7 => decodeFSS .jt cells
  | 8 => decodeFSS .jf cells
  | 9 => decodeFDSS .add cells
  | 10 => decodeFDSS .mult cells
  | 11 => decodeFDSS .mod cells
  | 12 => decodeFDSS .and cells
  | 13 => decodeFDSS .or cells
  | 14 => decodeFDS .not cells
  | 15 => decodeFDS .rmem cells
  | 16 => decodeFSS .wmem cells
  | 17 => decodeFS .call cells
  | 18 => .ok .ret
  | 19 => decodeFS .out cells
  | 20 => decodeFD .inp cells
  | 21 => .ok .noop
  | _ => .error ⟨.illegalOpcode op, 1⟩

/-- The decode part of `Step` (R89) on the cells from the opcode on. Cells past the instruction's length do not belong
to it and are not looked at (R80). -/
def decode (cells : List Cell) : Except Reject Instr :=
  match cells with
  | [] => .error ⟨.outOfCells, 0⟩
  | op :: _ => decodeOp op cells

/-! The encoder. -/

/-- The operand cell that names register `i`: 32768 + i (R22, R82). -/
def regCell (i : Reg) : Cell := BitVec.ofNat 16 (regBase + i.val)

/-- A number as a cell: bit 15 clear (R8, R82). -/
def numCell (n : Number) : Cell := n.setWidth 16

/-- The cell an operand is written as (R82). -/
def Operand.cell : Operand → Cell
  | .number n => numCell n
  | .register i => regCell i
  | .invalid x => x

/-- The cells of an instruction: opcode, then operands in cell order (R80, R83). -/
def encode : Instr → List Cell
  | .halt => [0x0000#16]
  | .set d b => [0x0001#16, regCell d, b.cell]
  | .push a => [0x0002#16, a.cell]
  | .pop d => [0x0003#16, regCell d]
  | .eq d b c => [0x0004#16, regCell d, b.cell, c.cell]
  | .gt d b c => [0x0005#16, regCell d, b.cell, c.cell]
  | .jmp a => [0x0006#16, a.cell]
  | .jt a b => [0x0007#16, a.cell, b.cell]
  | .jf a b => [0x0008#16, a.cell, b.cell]
  | .add d b c => [0x0009#16, regCell d, b.cell, c.cell]
  | .mult d b c => [0x000A#16, regCell d, b.cell, c.cell]
  | .mod d b c => [0x000B#16, regCell d, b.cell, c.cell]
  | .and d b c => [0x000C#16, regCell d, b.cell, c.cell]
  | .or d b c => [0x000D#16, regCell d, b.cell, c.cell]
  | .not d b => [0x000E#16, regCell d, b.cell]
  | .rmem d b => [0x000F#16, regCell d, b.cell]
  | .wmem a b => [0x0010#16, a.cell, b.cell]
  | .call a => [0x0011#16, a.cell]
  | .ret => [0x0012#16]
  | .out a => [0x0013#16, a.cell]
  | .inp d => [0x0014#16, regCell d]
  | .noop => [0x0015#16]

/-- The shape of an instruction: its operand kinds in cell order (R80, R83). -/
def Instr.kinds : Instr → List Kind
  | .halt => []
  | .set _ _ => [.dst, .src]
  | .push _ => [.src]
  | .pop _ => [.dst]
  | .eq _ _ _ => [.dst, .src, .src]
  | .gt _ _ _ => [.dst, .src, .src]
  | .jmp _ => [.src]
  | .jt _ _ => [.src, .src]
  | .jf _ _ => [.src, .src]
  | .add _ _ _ => [.dst, .src, .src]
  | .mult _ _ _ => [.dst, .src, .src]
  | .mod _ _ _ => [.dst, .src, .src]
  | .and _ _ _ => [.dst, .src, .src]
  | .or _ _ _ => [.dst, .src, .src]
  | .not _ _ => [.dst, .src]
  | .rmem _ _ => [.dst, .src]
  | .wmem _ _ => [.src, .src]
  | .call _ => [.src]
  | .ret => []
  | .out _ => [.src]
  | .inp _ => [.dst]
  | .noop => []

/-- The length in cells: one plus the arity (R80, R94). -/
def Instr.length (i : Instr) : Nat := 1 + i.kinds.length

/-- The register the instruction may write: its destination operand (R23). -/
def Instr.dest? : Instr → Option Reg
  | .halt => none
  | .set d _ => some d
  | .push _ => none
  | .pop d => some d
  | .eq d _ _ => some d
  | .gt d _ _ => some d
  | .jmp _ => none
  | .jt _ _ => none
  | .jf _ _ => none
  | .add d _ _ => some d
  | .mult d _ _ => some d
  | .mod d _ _ => some d
  | .and d _ _ => some d
  | .or d _ _ => some d
  | .not d _ => some d
  | .rmem d _ => some d
  | .wmem _ _ => none
  | .call _ => none
  | .ret => none
  | .out _ => none
  | .inp d => some d
  | .noop => none

/-- The longest instruction has four cells (R80). -/
def maxLength : Nat := 4

/-! Instructions as one number, laid out as spec/opcode_table.json numbers their bits: bit 0 is the least significant
bit of cell 0, and cell k holds bits 16 k + 15 .. 16 k. -/

/-- Cell `k` of the instruction whose low `nbits` bits are those of `w` and whose further bits are 0. -/
def tableCell (nbits w k : Nat) : Cell := BitVec.ofNat 16 (w % 2 ^ nbits / 65536 ^ k)

/-- The four cells of that instruction. -/
def tableCells (nbits w : Nat) : List Cell :=
  [tableCell nbits w 0, tableCell nbits w 1, tableCell nbits w 2, tableCell nbits w 3]

/-- The instruction the decoder reads from it, if it accepts it. -/
def decodeTableWord (nbits w : Nat) : Option Instr :=
  match decode (tableCells nbits w) with
  | .ok i => some i
  | .error _ => none

end Sys2Proof
end

