-- ==== Sys2Proof/Machine/State.lean ====
section
/-! DEFINITION. The machine's state (R20) as plain data, the model's parameters that stand in it (R6), the causes of a
fault (R201), the reasons for which a step has no next state, and reset (R37). -/

namespace Sys2Proof.Machine

/-- The causes of R201. `loadError` is the loader's and never reaches the fault record (R202). -/
inductive Cause where
  | loadError
  | illegalOpcode
  | invalidOperand
  | invalidDestination
  | divideByZero
  | stackUnderflow
  | stackOverflow
  | inputEOF
  | hostIOFailure
  | dataAddressRange
  | fetchAddressRange
  | nonNumberLoad
  | linkAddressRange
deriving DecidableEq, Repr

/-- Why no step is enabled. -/
inductive Fault where
  /-- Raised by `step` alone, in HALTED (clean or faulted): R89 "The step is enabled only when `halted = false`".
  Safe: the machine does nothing more until reset (R30, R219). Log 7. -/
  | halted
deriving DecidableEq, Repr

/-- Refusals. -/
inductive Refusal where
  /-- Raised by an arm of `exec` whose instruction has no meaning yet. Safe: nothing can be proved about it. No arm of
  this model raises it. -/
  | notModelled (mnemonic : String)
deriving DecidableEq, Repr

/-- The memory (R20, R50): (cell address, content) pairs. Unlisted addresses read 0 (R57); the canonical form is
`Memory.wf` (Ops.lean). The unit is the 16-bit cell because the spec has no bytes inside the machine (log 1). -/
abbrev Memory := List (Nat × Cell)

/-- What the host answers on the input port once it has delivered all of `HostScript.input` (R43). -/
inductive InputEnd where
  /-- It has not answered yet: `in` holds. -/
  | silent
  | eof
  | failed
deriving DecidableEq, Repr

/-- The host's side of the two character ports, as data the step reads and never changes (log 5). Failure and end of
input are fatal, so a list and its end say all of the input port's answers, and one index all of the output port's. -/
structure HostScript where
  /-- `INPUT` (R6): `inPos` counts how many of them have been consumed. -/
  input : List Number := []
  inputEnd : InputEnd := .silent
  /-- The output transaction the host answers `failed`, counted by the values emitted before it; `none`: never. -/
  outFailAt : Option Nat := none
deriving DecidableEq, Repr

/-- An answer of the output port (R42). -/
inductive OutAnswer where
  | ok
  | failed
deriving DecidableEq, Repr

/-- An answer of the input port (R43). -/
inductive InAnswer where
  | value (v : Number)
  | eof
  | failed
deriving DecidableEq, Repr

/-- The complete state (R20), and the open parameters (R6) beside it. -/
structure State where
  /-- `x[0]` .. `x[7]` (R21). -/
  regs : Vector Number 8
  /-- The index of the next cell to fetch (R24, R26). -/
  pc : Pc
  /-- Bottom first, top last (R27). -/
  stack : List Number
  /-- The halt flag (R30). -/
  halted : Bool
  /-- The fault record (R32). -/
  faultCause : BitVec 8
  faultPc : Pc
  faultInfo : Cell
  mem : Memory
  /-- Every value emitted by `out`, in order (R42). -/
  outTrace : List Number
  /-- How many input values have been consumed (R43). -/
  inPos : Nat
  cfg : Config
  host : HostScript
deriving DecidableEq, Repr

/-- The state when reset is released with memory `mem` loaded (R37, R240). -/
def State.boot (cfg : Config) (host : HostScript) (mem : Memory) : State where
  regs := Vector.replicate 8 0#15
  pc := 0#16
  stack := []
  halted := false
  faultCause := 0#8
  faultPc := 0#16
  faultInfo := 0#16
  mem := mem
  outTrace := []
  inPos := 0
  cfg := cfg
  host := host

/-- The machine right after reset with nothing placed: the empty image, the parameters at R6's defaults, and a host that
has answered nothing yet (log 3, log 5). -/
def State.reset : State := State.boot {} {} []

end Sys2Proof.Machine
end

