-- ==== Sys2Proof/Machine/Ops.lean ====
section
/-! DEFINITION. The named operations over memory, registers, program counter, stack and ports, fetching an instruction's
cells, and taking a fault. -/

namespace Sys2Proof.Machine

/-! ### Memory (R50 to R52) -/

/-- What an address that is not listed reads as: R57, "Memory beyond the loaded image is zero-initialized". -/
def unlisted : Cell := 0#16

/-- `MemRead(addr, 1)` (R52). The callers check the address first. -/
def Memory.read : Memory → Nat → Cell
  | [], _ => unlisted
  | (k, v) :: rest, a => if k = a then v else Memory.read rest a

/-- Puts `(a, v)` in front, unless `v` is what an unlisted address reads as. -/
def Memory.list (a : Nat) (v : Cell) (m : Memory) : Memory :=
  if v = unlisted then m else (a, v) :: m

/-- `MemWrite(addr, 1, v)` (R52), keeping addresses rising and listing no cell equal to `unlisted`. -/
def Memory.write : Memory → Nat → Cell → Memory
  | [], a, v => Memory.list a v []
  | (k, w) :: rest, a, v =>
    if a < k then Memory.list a v ((k, w) :: rest)
    else if a = k then Memory.list a v rest
    else (k, w) :: Memory.write rest a v

/-- The canonical form from address `lo` on: addresses strictly rising, each below 32768, no entry equal to
`unlisted`. -/
def Memory.wfFrom : Nat → Memory → Bool
  | _, [] => true
  | lo, (k, v) :: rest =>
    decide (lo ≤ k) && decide (k < memCells) && decide (v ≠ unlisted) && Memory.wfFrom (k + 1) rest

/-- The canonical form of a memory. -/
def Memory.wf (m : Memory) : Bool := Memory.wfFrom 0 m

/-- Writes the cells of a list at consecutive addresses from `a`; cells past 32767 do not exist and are dropped. -/
def Memory.writeCells : Memory → Nat → List Cell → Memory
  | m, _, [] => m
  | m, a, c :: cs => if a < memCells then Memory.writeCells (m.write a c) (a + 1) cs else m

/-! ### Registers and program counter (R21, R24) -/

/-- `x[i]` (R21). -/
def State.reg (s : State) (i : Reg) : Number := s.regs[i]

/-- `x[i] <- v` (R21). No register is hardwired (R22). -/
def State.setReg (s : State) (i : Reg) (v : Number) : State := { s with regs := s.regs.set i v }

/-- `k` fetches' post-increments of the pc (R24, R84). -/
def State.consume (s : State) (k : Nat) : State := { s with pc := s.pc + BitVec.ofNat 16 k }

/-- `pc <- target` (R24): the target is a number. -/
def State.jump (s : State) (target : Number) : State := { s with pc := numCell target }

/-! ### Stack (R27 to R29) -/

/-- `len(stack) = STACK_DEPTH`, never true when the depth is unbounded (R29). -/
def State.stackFull (s : State) : Bool :=
  match s.cfg.stackDepth with
  | none => false
  | some n => s.stack.length == n

/-- `Push(v)` (R28). -/
def State.pushed (s : State) (v : Number) : State := { s with stack := s.stack ++ [v] }

/-- The value `Pop()` returns, `none` for `empty` (R28). -/
def State.top (s : State) : Option Number := s.stack.getLast?

/-- What `Pop()` leaves (R28). -/
def State.popped (s : State) : State := { s with stack := s.stack.dropLast }

/-! ### Halting and taking a fault (R30, R201, R203) -/

/-- `halted <- true` (R30). -/
def State.stop (s : State) : State := { s with halted := true }

/-- The codes of R201. -/
def Cause.code : Cause → BitVec 8
  | .loadError => 0x11#8
  | .illegalOpcode => 0x21#8
  | .invalidOperand => 0x22#8
  | .invalidDestination => 0x23#8
  | .divideByZero => 0x31#8
  | .stackUnderflow => 0x41#8
  | .stackOverflow => 0x42#8
  | .inputEOF => 0x51#8
  | .hostIOFailure => 0x52#8
  | .dataAddressRange => 0x61#8
  | .fetchAddressRange => 0x62#8
  | .nonNumberLoad => 0x63#8
  | .linkAddressRange => 0x64#8

/-- `raise <Cause>(info)` (R203), where `ipc` is the faulting instruction's address. The pc stays where the fetches left
it. There is no return from a fault (R219). -/
def State.raise (s : State) (ipc : Pc) (c : Cause) (info : Cell) : State :=
  { s with faultCause := c.code, faultPc := ipc, faultInfo := info, halted := true }

/-- The pc's overrun value, and the information word of the two faults about it (R26, R201). -/
def overrun : Cell := 32768#16

/-! ### Fetching an instruction's cells (R84) -/

/-- The cells from address `a` on, at most `n`, none past cell 32767. -/
def Memory.cellsFrom (m : Memory) (a : Nat) : Nat → List Cell
  | 0 => []
  | n + 1 => if a < memCells then m.read a :: Memory.cellsFrom m (a + 1) n else []

/-- The cells an instruction at the pc can have. Reading one has no side effect (R56), so reading a cell past the
instruction's length changes nothing (log 10). -/
def State.window (s : State) : List Cell := s.mem.cellsFrom s.pc.toNat maxLength

/-- The cause of a decode fault (R92, R84). -/
def decodeCause : DecodeFault → Cause
  | .outOfCells => .fetchAddressRange
  | .illegalOpcode _ => .illegalOpcode
  | .invalidOperand _ => .invalidOperand
  | .invalidDestination _ => .invalidDestination

/-- The information word of a decode fault (R201). -/
def decodeInfo : DecodeFault → Cell
  | .outOfCells => overrun
  | .illegalOpcode x => x
  | .invalidOperand x => x
  | .invalidDestination x => x

/-- A decode fault: the pc has passed the cells fetched (R203). -/
def State.decodeFault (s : State) (r : Reject) : State :=
  (s.consume r.used).raise s.pc (decodeCause r.why) (decodeInfo r.why)

/-! ### Ports (R42, R43) -/

/-- The host's answer to an `Out` transaction (R42): never `failed` when `HOST_CAN_FAIL` is false. -/
def State.outAnswer (s : State) : OutAnswer :=
  if s.cfg.hostCanFail && decide (s.host.outFailAt = some s.outTrace.length) then .failed else .ok

/-- On `ok` the value is appended to the trace (R42). -/
def State.emitted (s : State) (v : Number) : State := { s with outTrace := s.outTrace ++ [v] }

/-- The host's answer to an `In` transaction (R43), `none` while it has not answered. A value above `IN_MAX`, and a
failure when `HOST_CAN_FAIL` is false, are no answers the port allows: it has none then (log 9). -/
def State.inAnswer (s : State) : Option InAnswer :=
  match s.host.input[s.inPos]? with
  | some v => if v.toNat ≤ s.cfg.inMax.toNat then some (.value v) else none
  | none =>
    match s.host.inputEnd with
    | .silent => none
    | .eof => some .eof
    | .failed => if s.cfg.hostCanFail then some .failed else none

/-- One input value is consumed (R43). -/
def State.inputTaken (s : State) : State := { s with inPos := s.inPos + 1 }

end Sys2Proof.Machine
end

