-- ==== Sys2Proof/Machine/Operands.lean ====
section
/-! DEFINITION. Source operands: `Value` (R85). Destination operands are register indexes once decoded (R86, R88), and
the only addressing mode is a source operand's value (R172). -/

namespace Sys2Proof.Machine

/-- `Value(x)` (R85), `none` where it fails. -/
def State.value (s : State) : Operand → Option Number
  | .number n => some n
  | .register i => some (s.reg i)
  | .invalid _ => none

/-- Goes on with `Value(x)`, or raises InvalidOperand(x) (R85). `s` is the state after the instruction's fetches and
`ipc` its address. A decoded instruction never takes the second way (R87; log 11). -/
def State.withValue (s : State) (ipc : Pc) (x : Operand) (k : Number → State) : State :=
  match s.value x with
  | some v => k v
  | none => s.raise ipc .invalidOperand x.cell

/-- `x[d] <- f(Value(b))` for an instruction of format `FDS` (R80): three cells. -/
def State.unary (s : State) (f : Number → Number) (d : Reg) (b : Operand) : State :=
  (s.consume 3).withValue s.pc b fun v => (s.consume 3).setReg d (f v)

/-- `x[d] <- f(Value(b), Value(c))` for an instruction of format `FDSS` (R80): four cells. -/
def State.binary (s : State) (f : Number → Number → Number) (d : Reg) (b c : Operand) : State :=
  (s.consume 4).withValue s.pc b fun v =>
    (s.consume 4).withValue s.pc c fun w => (s.consume 4).setReg d (f v w)

end Sys2Proof.Machine
end

