-- ==== Sys2Proof/Machine/Alu.lean ====
section
/-! DEFINITION. add, mult, mod, and, or, not and the ALU's laws (44_alu.md). -/

namespace Sys2Proof.Machine

/-- "the exact integer result reduced modulo 32768" (R157), 32768 = 2^15. -/
def narrow (n : Nat) : Number := BitVec.ofNat 15 n

/-- The ALU's `add` (R150, R157). -/
def aluAdd (v w : Number) : Number := narrow (v.toNat + w.toNat)

/-- The ALU's `mult` (R151, R157). -/
def aluMult (v w : Number) : Number := narrow (v.toNat * w.toNat)

/-- The ALU's `mod` (R152, R158), for a divisor that is not 0. -/
def aluMod (v w : Number) : Number := narrow (v.toNat % w.toNat)

/-- The ALU's `not` (R155, R159): the 16-bit inverse with bit 15 cleared. -/
def aluNot (v : Number) : Number := (~~~(numCell v) &&& 0x7FFF#16).setWidth 15

/-- `add d, b, c` (R150). -/
def execAdd (d : Reg) (b c : Operand) (s : State) : Host.Outcome State Fault Refusal :=
  .next (s.binary aluAdd d b c)

/-- `mult d, b, c` (R151). -/
def execMult (d : Reg) (b c : Operand) (s : State) : Host.Outcome State Fault Refusal :=
  .next (s.binary aluMult d b c)

/-- `mod d, b, c` (R152). -/
def execMod (d : Reg) (b c : Operand) (s : State) : Host.Outcome State Fault Refusal :=
  .next <| (s.consume 4).withValue s.pc b fun n =>
    (s.consume 4).withValue s.pc c fun m =>
      if m = 0#15 then (s.consume 4).raise s.pc .divideByZero 0#16
      else (s.consume 4).setReg d (aluMod n m)

/-- `and d, b, c` (R153). -/
def execAnd (d : Reg) (b c : Operand) (s : State) : Host.Outcome State Fault Refusal :=
  .next (s.binary (fun v w => v &&& w) d b c)

/-- `or d, b, c` (R154). -/
def execOr (d : Reg) (b c : Operand) (s : State) : Host.Outcome State Fault Refusal :=
  .next (s.binary (fun v w => v ||| w) d b c)

/-- `not d, b` (R155). -/
def execNot (d : Reg) (b : Operand) (s : State) : Host.Outcome State Fault Refusal :=
  .next (s.unary aluNot d b)

end Sys2Proof.Machine
end

