-- ==== Sys2Proof/Machine/Flags.lean ====
section
/-! DEFINITION. R33: "There are no flags, condition codes or predicates." What stands in their place: the numbers 0 and 1
that eq and gt write, and the test against zero of jt and jf. -/

namespace Sys2Proof.Machine

/-- "The result is exactly 1 or exactly 0" (R130, R131). -/
def truth (b : Bool) : Number := if b then 1#15 else 0#15

/-- "any non-zero value, 1..32767, counts as true" (R141). -/
def isTrue (v : Number) : Bool := v ≠ 0#15

end Sys2Proof.Machine
end

