-- ==== Sys2Proof/Machine/Compare.lean ====
section
/-! DEFINITION. eq and gt (42_compare.md). -/

namespace Sys2Proof.Machine

/-- `eq d, b, c` (R130). -/
def execEq (d : Reg) (b c : Operand) (s : State) : Host.Outcome State Fault Refusal :=
  .next (s.binary (fun v w => truth (decide (v = w))) d b c)

/-- `gt d, b, c` (R131): unsigned and strict. -/
def execGt (d : Reg) (b c : Operand) (s : State) : Host.Outcome State Fault Refusal :=
  .next (s.binary (fun v w => truth (decide (v.toNat > w.toNat))) d b c)

end Sys2Proof.Machine
end

