-- ==== Sys2Proof/Machine/Control.lean ====
section
/-! DEFINITION. jmp, jt, jf, call and ret (43_control_transfer.md). -/

namespace Sys2Proof.Machine

/-- `jmp a` (R140). -/
def execJmp (a : Operand) (s : State) : Host.Outcome State Fault Refusal :=
  .next <| (s.consume 2).withValue s.pc a fun t => (s.consume 2).jump t

/-- `jt a, b` (R141). -/
def execJt (a b : Operand) (s : State) : Host.Outcome State Fault Refusal :=
  .next <| (s.consume 3).withValue s.pc a fun v =>
    if isTrue v then (s.consume 3).withValue s.pc b fun t => (s.consume 3).jump t else s.consume 3

/-- `jf a, b` (R142). -/
def execJf (a b : Operand) (s : State) : Host.Outcome State Fault Refusal :=
  .next <| (s.consume 3).withValue s.pc a fun v =>
    if isTrue v then s.consume 3 else (s.consume 3).withValue s.pc b fun t => (s.consume 3).jump t

/-- `call a` (R143): the return address is the pc after the two fetches, and must be a number. -/
def execCall (a : Operand) (s : State) : Host.Outcome State Fault Refusal :=
  .next <| (s.consume 2).withValue s.pc a fun t =>
    if memCells ≤ (s.consume 2).pc.toNat then (s.consume 2).raise s.pc .linkAddressRange overrun
    else if s.stackFull then (s.consume 2).raise s.pc .stackOverflow 0#16
    else ((s.consume 2).pushed ((s.consume 2).pc.setWidth 15)).jump t

/-- `ret` (R144): on an empty stack a clean halt, not a fault. -/
def execRet (s : State) : Host.Outcome State Fault Refusal :=
  .next <|
    match s.top with
    | none => (s.consume 1).stop
    | some r => (s.consume 1).popped.jump r

end Sys2Proof.Machine
end

