-- ==== Sys2Proof/Machine/Io.lean ====
section
/-! DEFINITION. out and in (46_io.md). -/

namespace Sys2Proof.Machine

/-- `out a` (R180). -/
def execOut (a : Operand) (s : State) : Host.Outcome State Fault Refusal :=
  .next <| (s.consume 2).withValue s.pc a fun v =>
    match s.outAnswer with
    | .ok => (s.consume 2).emitted v
    | .failed => (s.consume 2).raise s.pc .hostIOFailure 0#16

/-- `in d` (R181). While the host has not answered, the state is the one before the instruction (log 6). -/
def execIn (d : Reg) (s : State) : Host.Outcome State Fault Refusal :=
  .next <|
    match s.inAnswer with
    | none => s
    | some (.value v) => (s.consume 2).inputTaken.setReg d v
    | some .eof => (s.consume 2).raise s.pc .inputEOF 0#16
    | some .failed => (s.consume 2).raise s.pc .hostIOFailure 0#16

end Sys2Proof.Machine
end

