-- ==== Sys2Proof/Machine/MemoryAccess.lean ====
section
/-! DEFINITION. rmem and wmem (45_memory_access.md). The address check is R210's, which no address can fail. -/

namespace Sys2Proof.Machine

/-- `rmem d, b` (R170). -/
def execRmem (d : Reg) (b : Operand) (s : State) : Host.Outcome State Fault Refusal :=
  .next <| (s.consume 3).withValue s.pc b fun ea =>
    if memCells ≤ ea.toNat then (s.consume 3).raise s.pc .dataAddressRange (numCell ea)
    else if memCells ≤ (s.mem.read ea.toNat).toNat then
      (s.consume 3).raise s.pc .nonNumberLoad (s.mem.read ea.toNat)
    else (s.consume 3).setReg d ((s.mem.read ea.toNat).setWidth 15)

/-- The state after a store of the number `v` to cell `ea`. -/
def State.stored (s : State) (ea : Nat) (v : Number) : State := { s with mem := s.mem.write ea (numCell v) }

/-- `wmem a, b` (R171): both operands are sources. -/
def execWmem (a b : Operand) (s : State) : Host.Outcome State Fault Refusal :=
  .next <| (s.consume 3).withValue s.pc a fun ea =>
    (s.consume 3).withValue s.pc b fun v =>
      if memCells ≤ ea.toNat then (s.consume 3).raise s.pc .dataAddressRange (numCell ea)
      else (s.consume 3).stored ea.toNat v

end Sys2Proof.Machine
end

