-- ==== Sys2Proof/Machine/MoveStack.lean ====
section
/-! DEFINITION. set, push and pop (41_move_stack.md). -/

namespace Sys2Proof.Machine

/-- `set d, b` (R120). -/
def execSet (d : Reg) (b : Operand) (s : State) : Host.Outcome State Fault Refusal :=
  .next (s.unary id d b)

/-- `push a` (R121). -/
def execPush (a : Operand) (s : State) : Host.Outcome State Fault Refusal :=
  .next <| (s.consume 2).withValue s.pc a fun v =>
    if s.stackFull then (s.consume 2).raise s.pc .stackOverflow 0#16 else (s.consume 2).pushed v

/-- `pop d` (R122). -/
def execPop (d : Reg) (s : State) : Host.Outcome State Fault Refusal :=
  .next <|
    match s.top with
    | none => (s.consume 2).raise s.pc .stackUnderflow 0#16
    | some r => (s.consume 2).popped.setReg d r

end Sys2Proof.Machine
end

