-- ==== Sys2Proof/Machine/System.lean ====
section
/-! DEFINITION. halt and noop (40_system.md). -/

namespace Sys2Proof.Machine

/-- `halt` (R110). -/
def execHalt (s : State) : Host.Outcome State Fault Refusal := .next (s.consume 1).stop

/-- `noop` (R111). -/
def execNoop (s : State) : Host.Outcome State Fault Refusal := .next (s.consume 1)

end Sys2Proof.Machine
end

