-- ==== Sys2Proof/Machine/Dispatch.lean ====
section
/-! DEFINITION. One arm per constructor of `Instr` (R83): the instruction's meaning, from the state with
`pc = ipc` to the state after the instruction (log 10). -/

namespace Sys2Proof.Machine

def exec (i : Instr) (s : State) : Host.Outcome State Fault Refusal :=
  match i with
  | .halt => Sys2Proof.Machine.execHalt s
  | .set d b => Sys2Proof.Machine.execSet d b s
  | .push a => Sys2Proof.Machine.execPush a s
  | .pop d => Sys2Proof.Machine.execPop d s
  | .eq d b c => Sys2Proof.Machine.execEq d b c s
  | .gt d b c => Sys2Proof.Machine.execGt d b c s
  | .jmp a => Sys2Proof.Machine.execJmp a s
  | .jt a b => Sys2Proof.Machine.execJt a b s
  | .jf a b => Sys2Proof.Machine.execJf a b s
  | .add d b c => Sys2Proof.Machine.execAdd d b c s
  | .mult d b c => Sys2Proof.Machine.execMult d b c s
  | .mod d b c => Sys2Proof.Machine.execMod d b c s
  | .and d b c => Sys2Proof.Machine.execAnd d b c s
  | .or d b c => Sys2Proof.Machine.execOr d b c s
  | .not d b => Sys2Proof.Machine.execNot d b s
  | .rmem d b => Sys2Proof.Machine.execRmem d b s
  | .wmem a b => Sys2Proof.Machine.execWmem a b s
  | .call a => Sys2Proof.Machine.execCall a s
  | .ret => Sys2Proof.Machine.execRet s
  | .out a => Sys2Proof.Machine.execOut a s
  | .inp d => Sys2Proof.Machine.execIn d s
  | .noop => Sys2Proof.Machine.execNoop s

end Sys2Proof.Machine
end

