-- ==== Sys2Proof/Machine/Step.lean ====
section
/-! DEFINITION. One step of the block (R89), and the placing of an instruction where the next step fetches it. -/

namespace Sys2Proof.Machine

/-- `Step()` (R89). -/
def step (s : State) : Host.Outcome State Fault Refusal :=
  if s.halted then .fault .halted
  else
    match decode s.window with
    | .ok i => exec i s
    | .error r => .next (s.decodeFault r)

/-- `s` with the instruction of `nbits` bits `w` (spec/opcode_table.json's numbering; further bits 0) in the cells from
the pc on, which is where `step` fetches. Nothing else changes; it stands for the loader's work (R66; log 3). -/
def State.withFetchWord (s : State) (nbits w : Nat) : State :=
  { s with mem := s.mem.writeCells s.pc.toNat (tableCells nbits w) }

end Sys2Proof.Machine
end

