-- ==== Sys2Proof/Machine/Load.lean ====
section
/-! DEFINITION. The image and reset (20_memory.md R54, R66; 70_reset_and_hazards.md): what the loader leaves in memory, and
the state on release of reset. The loader's work stands outside `step` (R4; log 3, log 12). -/

namespace Sys2Proof.Machine

/-- The three load-time failures (R66): on any of them the block is never released from reset (R241). -/
inductive LoadError where
  | oddLength
  | tooLong
  | unreadable
deriving DecidableEq, Repr

/-- "the cell at address `k` is `byte[2k] + 256 * byte[2k+1]`" (R54). -/
def imageCells : List Byte → List Cell
  | lo :: hi :: rest => BitVec.ofNat 16 (lo.toNat + 256 * hi.toNat) :: imageCells rest
  | [_] => []
  | [] => []

/-- The loader's reading of the image file (R66); `none` is a file it cannot read. DESIGN CHOICE, log 15: a file both odd in
length and longer than 65536 bytes is reported as `oddLength`; R66 calls each a load-time failure and does not say which
one it is then. Either way nothing is loaded and the host's report (`loadReport`) is the same. -/
def loadImage : Option (List Byte) → Except LoadError (List Cell)
  | none => .error .unreadable
  | some bytes =>
    if bytes.length % 2 = 1 then .error .oddLength
    else if 65536 < bytes.length then .error .tooLong
    else .ok (imageCells bytes)

/-- The memory after a load: cell `k` of the image at address `k`, 0 elsewhere (R57, R241). -/
def Memory.ofImage (image : List Cell) : Memory := Memory.writeCells [] 0 image

/-- Start-up (R241): the state when reset is released, or no run at all. -/
def State.start (cfg : Config) (host : HostScript) (file : Option (List Byte)) : Except LoadError State :=
  match loadImage file with
  | .ok image => .ok (State.boot cfg host (Memory.ofImage image))
  | .error e => .error e

/-- Reset asserted in state `s` and released again (R240): everything is discarded and memory reloaded from the image. -/
def State.afterReset (s : State) (image : List Cell) : State := State.boot s.cfg s.host (Memory.ofImage image)

end Sys2Proof.Machine
end

