-- ==== Sys2Proof/Machine/HostView.lean ====
section
/-! DEFINITION. What the host makes of the state (outside the block, R4): run states (R31), the report of a fault and the
exit code (R201, R215), the output bytes (R180) and the debugger view (R228). All are functions of the state. -/

namespace Sys2Proof.Machine

/-- The run states (R31). -/
inductive RunState where
  | running
  | cleanHalt
  | faulted
deriving DecidableEq, Repr

/-- R31: HALTED splits by the fault record. -/
def State.runState (s : State) : RunState :=
  if s.halted then (if s.faultCause = 0#8 then .cleanHalt else .faulted) else .running

/-- `kind(code) = code[7:4]` (R201): the document's kind of a fault. -/
def faultKind (code : BitVec 8) : BitVec 4 := code.extractLsb' 4 4

/-- The host process's exit code (R215), `none` while the machine runs. -/
def State.exitCode (s : State) : Option Nat :=
  match s.runState with
  | .running => none
  | .cleanHalt => some 0
  | .faulted => some ((Config.exitCodeLessOne s.faultCause).val + 1)

/-- What the host reports when the image does not load (R66, R202, R215): no step runs, and the exit code is not zero.
DESIGN CHOICE, log 17: the report has the kind and the exit code and no pc. R215 has the pc reported on a LoadError too, but
the block's record stays 0 (D20) and no rule reads the state during reset (U15), so the spec gives no pc to report. -/
def loadReport (_ : LoadError) : BitVec 4 × Nat :=
  (faultKind (Cause.code .loadError), (Config.exitCodeLessOne (Cause.code .loadError)).val + 1)

/-- The host function `render` (R180, U6). -/
def render (v : Number) : List Byte := if v.toNat ≤ 127 then [v.setWidth 8] else Config.renderHigh v

/-- The byte stream the host writes (R180). -/
def State.outBytes (s : State) : List Byte := s.outTrace.flatMap render

/-- An operand in the debugger view (R95): raw cell and resolved value of a source, register index of a destination. -/
inductive OperandView where
  | src (raw : Cell) (resolved : Option Number)
  | dst (i : Reg)
deriving DecidableEq, Repr

/-- One operand cell seen by the debugger, resolved "without raising" (R228). -/
def State.viewOperand (s : State) : Kind × Cell → OperandView
  | (.src, x) => .src x (s.value (classify x))
  | (.dst, x) => .dst (refReg x)

/-- The instruction at the pc and its operands (R228). Its text form is not given (N11, U16). DESIGN CHOICE, log 16: `none`,
no view at all, where the cells at the pc do not decode; R228 says only that the view does not raise. -/
def State.debugView (s : State) : Option (Instr × List OperandView) :=
  match decode s.window with
  | .ok i => some (i, (i.kinds.zip (encode i).tail).map s.viewOperand)
  | .error _ => none

end Sys2Proof.Machine
end

