-- ==== Sys2Proof/Machine/Sequence.lean ====
section
/-! DEFINITION. The decode sequence word for word (R84, R87, R88, R89): fetches one cell at a time, the pc advancing with
each. `step` (Step.lean) decodes the same cells at once; that the two agree is stated in Obligations.lean. -/

namespace Sys2Proof.Machine

/-- The formats (R80). -/
inductive Format where
  | f0
  | fs
  | fd
  | fds
  | fss
  | fdss
deriving DecidableEq, Repr

/-- `Fetch()` (R84): `.error` is the state after the raised fault. -/
def fetch (ipc : Pc) (s : State) : Except State (Cell × State) :=
  if memCells ≤ s.pc.toNat then .error (s.raise ipc .fetchAddressRange overrun)
  else .ok (s.mem.read s.pc.toNat, s.consume 1)

/-- `FetchS()` (R87). -/
def fetchS (ipc : Pc) (s : State) : Except State (Operand × State) :=
  match fetch ipc s with
  | .error t => .error t
  | .ok (x, t) =>
    if invalidBase ≤ x.toNat then .error (t.raise ipc .invalidOperand x) else .ok (classify x, t)

/-- `FetchD()` (R88), with `Target` (R86). -/
def fetchD (ipc : Pc) (s : State) : Except State (Reg × State) :=
  match fetch ipc s with
  | .error t => .error t
  | .ok (x, t) =>
    if regBase ≤ x.toNat ∧ x.toNat < invalidBase then .ok (refReg x, t)
    else .error (t.raise ipc .invalidDestination x)

/-- The format of each opcode (R83). -/
def formatOf (op : Nat) : Format :=
  if op ∈ [0, 18, 21] then .f0
  else if op ∈ [2, 6, 17, 19] then .fs
  else if op ∈ [3, 20] then .fd
  else if op ∈ [1, 14, 15] then .fds
  else if op ∈ [7, 8, 16] then .fss
  else .fdss

/-- The operands a format fetches, left to right (R89): the destination if it has one, then the sources. -/
def fetchOperands (ipc : Pc) (f : Format) (s : State) : Except State (Option Reg × List Operand) :=
  match f with
  | .f0 => .ok (none, [])
  | .fs =>
    match fetchS ipc s with
    | .error t => .error t
    | .ok (a, _) => .ok (none, [a])
  | .fd =>
    match fetchD ipc s with
    | .error t => .error t
    | .ok (d, _) => .ok (some d, [])
  | .fds =>
    match fetchD ipc s with
    | .error t => .error t
    | .ok (d, s1) =>
      match fetchS ipc s1 with
      | .error t => .error t
      | .ok (b, _) => .ok (some d, [b])
  | .fss =>
    match fetchS ipc s with
    | .error t => .error t
    | .ok (a, s1) =>
      match fetchS ipc s1 with
      | .error t => .error t
      | .ok (b, _) => .ok (none, [a, b])
  | .fdss =>
    match fetchD ipc s with
    | .error t => .error t
    | .ok (d, s1) =>
      match fetchS ipc s1 with
      | .error t => .error t
      | .ok (b, s2) =>
        match fetchS ipc s2 with
        | .error t => .error t
        | .ok (c, _) => .ok (some d, [b, c])

/-- The instruction of an opcode with its decoded operands (R83), `none` for operands of another shape. -/
def instrOf (op : Nat) : Option Reg × List Operand → Option Instr
  | (none, []) => match op with
    | 0 => some .halt
    | 18 => some .ret
    | 21 => some .noop
    | _ => none
  | (none, [a]) => match op with
    | 2 => some (.push a)
    | 6 => some (.jmp a)
    | 17 => some (.call a)
    | 19 => some (.out a)
    | _ => none
  | (some d, []) => match op with
    | 3 => some (.pop d)
    | 20 => some (.inp d)
    | _ => none
  | (some d, [b]) => match op with
    | 1 => some (.set d b)
    | 14 => some (.not d b)
    | 15 => some (.rmem d b)
    | _ => none
  | (none, [a, b]) => match op with
    | 7 => some (.jt a b)
    | 8 => some (.jf a b)
    | 16 => some (.wmem a b)
    | _ => none
  | (some d, [b, c]) => match op with
    | 4 => some (.eq d b c)
    | 5 => some (.gt d b c)
    | 9 => some (.add d b c)
    | 10 => some (.mult d b c)
    | 11 => some (.mod d b c)
    | 12 => some (.and d b c)
    | 13 => some (.or d b c)
    | _ => none
  | _ => none

/-- `Step()` as R89 writes it, `none` where no step is enabled: fetch the opcode, check it, fetch the operands of its
format, execute. `exec` takes the state with `pc = ipc` and makes the same advance (log 10). -/
def stepBySequence (s : State) : Option (Host.Outcome State Fault Refusal) :=
  if s.halted then none
  else
    match fetch s.pc s with
    | .error t => some (.next t)
    | .ok (op, s1) =>
      if 21 < op.toNat then some (.next (s1.raise s.pc .illegalOpcode op))
      else
        match fetchOperands s.pc (formatOf op.toNat) s1 with
        | .error t => some (.next t)
        | .ok operands => (instrOf op.toNat operands).map fun i => exec i s

end Sys2Proof.Machine
end

