-- ==== Sys2Proof/Safety.lean ====
section
/-! DEFINITION. The state invariant (R36 and the ranges of R20, R26, R29, R32) and the states a machine can be in. -/

namespace Sys2Proof.Machine

/-- The codes the fault record can hold (R201): no fault, and every cause but the loader's. "Codes not in the table are
never produced." -/
def recordCodes : List (BitVec 8) :=
  [0x00#8, 0x21#8, 0x22#8, 0x23#8, 0x31#8, 0x41#8, 0x42#8, 0x51#8, 0x52#8, 0x61#8, 0x62#8, 0x63#8, 0x64#8]

/-- `len(stack)` is at most `STACK_DEPTH` (R29). -/
def State.stackFits (s : State) : Bool :=
  match s.cfg.stackDepth with
  | none => true
  | some n => decide (s.stack.length ≤ n)

/-- The state invariant. Registers and stack entries are numbers by their type (R21, R27); this is the rest of R36, with
the ranges of the pc and of the fault record, and the memory's canonical form. -/
structure State.Inv (s : State) : Prop where
  /-- `pc` is in 0 .. 32768 (R26). -/
  pc : s.pc.toNat ≤ memCells
  /-- Every listed cell is one of cells 0 .. 32767, once, and not zero. -/
  mem : s.mem.wf = true
  /-- `fault_cause != 0` implies `halted` (R31, R36). -/
  halted : s.faultCause ≠ 0#8 → s.halted = true
  /-- The code is one of R201's. -/
  code : s.faultCause ∈ recordCodes
  /-- `fault_pc` is in 0 .. 32768 (R32). -/
  faultPc : s.faultPc.toNat ≤ memCells
  /-- No fault, nothing recorded (R32, R201). -/
  clear : s.faultCause = 0#8 → s.faultPc = 0#16 ∧ s.faultInfo = 0#16
  /-- The stack is no deeper than it may be (R29). -/
  stack : s.stackFits = true

/-- The states of a machine whose host may do all that R44 lets it do: release reset with any image, parameters and
script, act on the ports between steps (any further script), and assert reset again with any image. -/
inductive Reachable : State → Prop where
  | boot (cfg : Config) (host : HostScript) (image : List Cell) :
      Reachable (State.boot cfg host (Memory.ofImage image))
  | step (s t : State) : Reachable s → step s = .next t → Reachable t
  | hostActs (s : State) (host : HostScript) : Reachable s → Reachable { s with host := host }
  | reset (s : State) (image : List Cell) : Reachable s → Reachable (s.afterReset image)

end Sys2Proof.Machine
end

