-- ==== Sys2Proof/Certificates/Slice0/Obligations.lean ====
section
/-! DEFINITION. The statements for the provers, in the order of OBLIGATIONS.json. Each docstring names the rule of spec/ it
formalises; where a clause rests on one of the spec's own decisions (D<n>) or on a log entry, it says so. The hypotheses
on operands are of the form `s.value b = some v`: the operand is readable and its value is `v` (R85). -/

open Sys2Proof Sys2Proof.Machine

/-! ### Encoding -/

/-- R80, R82, R83: decoding the cells of a well-formed instruction gives it back, whatever follows them. -/
def Obligations.DecodeOfEncodeIsTheInstruction : Prop :=
  ∀ (i : Instr) (rest : List Cell), i.wf = true → decode (encode i ++ rest) = .ok i

/-- R80, R93, R94: what the decoder accepts is the encoding of a well-formed instruction, cell for cell; no bit of a cell
is ignored. -/
def Obligations.EncodeOfDecodeIsTheCells : Prop :=
  ∀ (cells : List Cell) (i : Instr), decode cells = .ok i → i.wf = true ∧ encode i = cells.take i.length

/-- R83: words written out from the spec's encodings and examples, at least one of each family. -/
def Obligations.SpecWordsDecode : Prop :=
  decode [0#16] = .ok .halt ∧
  decode [1#16, 32775#16, 32769#16] = .ok (.set 7 (.register 1)) ∧
  decode [3#16, 32771#16] = .ok (.pop 3) ∧
  decode [4#16, 32768#16, 32769#16, 4#16] = .ok (.eq 0 (.register 1) (.number 4#15)) ∧
  decode [7#16, 1#16, 5#16] = .ok (.jt (.number 1#15) (.number 5#15)) ∧
  decode [9#16, 32768#16, 32769#16, 4#16] = .ok (.add 0 (.register 1) (.number 4#15)) ∧
  decode [16#16, 32768#16, 32769#16] = .ok (.wmem (.register 0) (.register 1)) ∧
  decode [20#16, 32769#16] = .ok (.inp 1)

/-- R81: the opcode is the value of the whole cell; 0 .. 21 select the instructions, everything else is no opcode. -/
def Obligations.OpcodeIsTheWholeCell : Prop :=
  ∀ (op : Cell) (rest : List Cell),
    (decode (op :: rest) = .error ⟨.illegalOpcode op, 1⟩ ↔ 22 ≤ op.toNat) ∧
    (op.toNat ≤ 21 ↔ (∀ k, 5 ≤ k → k < 16 → op.getLsbD k = false) ∧ (op.setWidth 5).toNat ≤ 21) ∧
    (∀ i, decode (op :: rest) = .ok i → (encode i).head? = some op) ∧
    (op.toNat ≤ 21 → ∃ (i : Instr) (operands : List Cell), i.wf = true ∧ decode (op :: operands) = .ok i)

/-- R82: the three classes of an operand cell, by value and by bits, and which positions accept them. -/
def Obligations.OperandCellsHaveThreeClasses : Prop :=
  ∀ x : Cell,
    (x.toNat ≤ 32767 → x.getLsbD 15 = false ∧ ∃ n : Number, classify x = .number n ∧ n.toNat = x.toNat) ∧
    (32768 ≤ x.toNat → x.toNat ≤ 32775 →
      x.extractLsb' 3 13 = 0b1000000000000#13 ∧
      ∃ i : Reg, classify x = .register i ∧ i.val = x.toNat - 32768 ∧ i.val = (x.extractLsb' 0 3).toNat) ∧
    (32776 ≤ x.toNat → x.getLsbD 15 = true ∧ x.extractLsb' 3 12 ≠ 0#12 ∧ classify x = .invalid x) ∧
    ∀ (cells : List Cell) (k : Nat), cells[k]? = some x →
      ((∃ o, srcAt cells k = .ok o) ↔ x.toNat ≤ 32775) ∧
      ((∃ d, dstAt cells k = .ok d) ↔ 32768 ≤ x.toNat ∧ x.toNat ≤ 32775)

/-! ### Operands -/

/-- R85: `Value(x)`: a number is itself, a register reference is the register's content, an invalid cell raises
InvalidOperand(x) and the instruction ends. -/
def Obligations.ValueResolvesASourceCell : Prop :=
  ∀ (s : State) (x : Cell),
    (x.toNat ≤ 32767 → ∃ n : Number, n.toNat = x.toNat ∧ s.value (classify x) = some n) ∧
    (32768 ≤ x.toNat → x.toNat ≤ 32775 →
      ∃ i : Reg, i.val = x.toNat - 32768 ∧ s.value (classify x) = some (s.reg i)) ∧
    (32776 ≤ x.toNat → ∀ (ipc : Pc) (k : Number → State),
      s.withValue ipc (classify x) k =
        { s with faultCause := 0x22#8, faultPc := ipc, faultInfo := x, halted := true })

/-! ### One step -/

/-- R89: a running machine whose cells at the pc decode to `i` makes `i`'s step; in particular when memory holds `i`'s
encoding there. `exec` itself advances the pc past the instruction (log 10). -/
def Obligations.StepRunsTheDecodedInstruction : Prop :=
  (∀ (s : State) (i : Instr), s.halted = false → decode s.window = .ok i → step s = exec i s) ∧
  (∀ (s : State) (i : Instr), s.halted = false → i.wf = true → s.pc.toNat + i.length ≤ 32768 →
    (∀ k, k < i.length → (encode i)[k]? = some (s.mem.read (s.pc.toNat + k))) → step s = exec i s)

/-- R84, R87, R88, R89: the step is the spec's sequence of single fetches, each classified before the next (D6). Both sides
run `exec` on the state with `pc = ipc`, and it makes the sequence's advance itself (log 10). The states with the pc above
32768, which no run reaches and of which the spec says nothing, follow the model's choice of log 2 on both sides. -/
def Obligations.StepIsTheFetchSequence : Prop :=
  ∀ s : State, stepBySequence s = if s.halted then none else some (step s)

/-- R253: "when `halted = false` and the next instruction is not an `in` waiting for the host, a step is enabled and
completes": a running machine always has a next state. (For a waiting `in` it is the same state: the model's choice,
log 6.) -/
def Obligations.RunningMachineHasANextState : Prop :=
  ∀ s : State, s.halted = false → ∃ t, step s = .next t

/-- R30: the halt flag: initially false; set by `halt`, by `ret` on an empty stack and by every fault, and by nothing
else; no instruction clears it or reads it; while it is set no instruction executes. (That `step` says so by answering
`.fault .halted` is the model's choice, log 7: R30 and R89 say only that no step is enabled.) -/
def Obligations.HaltFlagIsSetByHaltRetAndFaultsOnly : Prop :=
  (∀ cfg host mem, (State.boot cfg host mem).halted = false) ∧
  (∀ s : State, s.halted = true → step s = .fault .halted) ∧
  (∀ s t : State, exec .halt s = .next t → t.halted = true) ∧
  (∀ s t : State, s.stack = [] → exec .ret s = .next t → t.halted = true) ∧
  (∀ s t : State, step s = .next t → s.faultCause = 0#8 → t.faultCause ≠ 0#8 → t.halted = true) ∧
  (∀ s t : State, step s = .next t → t.halted = true →
    decode s.window = .ok .halt ∨ (decode s.window = .ok .ret ∧ s.stack = []) ∨ t.faultCause ≠ 0#8) ∧
  (∀ (i : Instr) (s t : State), exec i s = .next t → s.halted = true → t.halted = true) ∧
  (∀ (i : Instr) (s t : State) (h : Bool), exec i s = .next t →
    ∃ t', exec i { s with halted := h } = .next t' ∧ { t' with halted := t.halted } = t)

/-- R25: how each instruction leaves the pc when it raises no fault. -/
def Obligations.PcAfterEachInstruction : Prop :=
  ∀ s t : State, s.faultCause = 0#8 → t.faultCause = 0#8 →
    (exec .halt s = .next t → t.pc = s.pc + 1#16 ∧ t.halted = true) ∧
    (exec .noop s = .next t → t.pc = s.pc + 1#16) ∧
    (∀ d b, exec (.set d b) s = .next t ∨ exec (.not d b) s = .next t ∨ exec (.rmem d b) s = .next t →
      t.pc = s.pc + 3#16) ∧
    (∀ a b, exec (.wmem a b) s = .next t → t.pc = s.pc + 3#16) ∧
    (∀ a, exec (.push a) s = .next t ∨ exec (.out a) s = .next t → t.pc = s.pc + 2#16) ∧
    (∀ d, exec (.pop d) s = .next t → t.pc = s.pc + 2#16) ∧
    (∀ d, exec (.inp d) s = .next t → s.inAnswer ≠ none → t.pc = s.pc + 2#16) ∧
    (∀ d b c, exec (.eq d b c) s = .next t ∨ exec (.gt d b c) s = .next t ∨ exec (.add d b c) s = .next t ∨
      exec (.mult d b c) s = .next t ∨ exec (.mod d b c) s = .next t ∨ exec (.and d b c) s = .next t ∨
      exec (.or d b c) s = .next t → t.pc = s.pc + 4#16) ∧
    (∀ a v, s.value a = some v → exec (.jmp a) s = .next t → t.pc = numCell v) ∧
    (∀ a b v w, s.value a = some v → s.value b = some w → exec (.jt a b) s = .next t →
      t.pc = if v ≠ 0#15 then numCell w else s.pc + 3#16) ∧
    (∀ a b v w, s.value a = some v → s.value b = some w → exec (.jf a b) s = .next t →
      t.pc = if v = 0#15 then numCell w else s.pc + 3#16) ∧
    (∀ a v, s.value a = some v → exec (.call a) s = .next t →
      t.pc = numCell v ∧ ∃ r : Number, t.stack = s.stack ++ [r] ∧ numCell r = s.pc + 2#16) ∧
    (exec .ret s = .next t →
      (s.stack = [] → t.pc = s.pc + 1#16 ∧ t.halted = true) ∧
      ∀ st r, s.stack = st ++ [r] → t.pc = numCell r)

/-! ### Decode faults -/

/-- R204: an opcode cell of 22 or more raises IllegalOpcode; no operand cell is fetched. -/
def Obligations.IllegalOpcodeIsRaised : Prop :=
  ∀ s : State, s.halted = false → s.pc.toNat < 32768 → 22 ≤ (s.mem.read s.pc.toNat).toNat →
    step s = .next { s with
      pc := s.pc + 1#16, faultCause := 0x21#8, faultPc := s.pc, faultInfo := s.mem.read s.pc.toNat, halted := true }

/-- R205: a cell of 32776 or more in a source position raises InvalidOperand, after the cells before it decoded. -/
def Obligations.InvalidOperandIsRaised : Prop :=
  (∀ (i : Instr) (j : Nat) (s : State), i.wf = true → s.halted = false → i.kinds[j]? = some .src →
    s.pc.toNat + 1 + j < 32768 →
    (∀ k, k ≤ j → (encode i)[k]? = some (s.mem.read (s.pc.toNat + k))) →
    32776 ≤ (s.mem.read (s.pc.toNat + 1 + j)).toNat →
    step s = .next { s with
      pc := s.pc + BitVec.ofNat 16 (j + 2), faultCause := 0x22#8, faultPc := s.pc,
      faultInfo := s.mem.read (s.pc.toNat + 1 + j), halted := true }) ∧
  (∀ i : Instr, Kind.src ∈ i.kinds ↔
    ¬ (i = .halt ∨ (∃ d, i = .pop d) ∨ i = .ret ∨ (∃ d, i = .inp d) ∨ i = .noop))

/-- R206: a cell outside 32768 .. 32775 in a destination position, always operand a, raises InvalidDestination. -/
def Obligations.InvalidDestinationIsRaised : Prop :=
  (∀ (i : Instr) (s : State), s.halted = false → i.kinds.head? = some .dst → s.pc.toNat + 1 < 32768 →
    (encode i).head? = some (s.mem.read s.pc.toNat) →
    (s.mem.read (s.pc.toNat + 1)).toNat < 32768 ∨ 32776 ≤ (s.mem.read (s.pc.toNat + 1)).toNat →
    step s = .next { s with
      pc := s.pc + 2#16, faultCause := 0x23#8, faultPc := s.pc, faultInfo := s.mem.read (s.pc.toNat + 1),
      halted := true }) ∧
  (∀ (i : Instr) (j : Nat), i.kinds[j]? = some .dst → j = 0) ∧
  (∀ i : Instr, Kind.dst ∈ i.kinds ↔
    ((∃ d b, i = .set d b) ∨ (∃ d, i = .pop d) ∨ (∃ d b c, i = .eq d b c) ∨ (∃ d b c, i = .gt d b c) ∨
     (∃ d b c, i = .add d b c) ∨ (∃ d b c, i = .mult d b c) ∨ (∃ d b c, i = .mod d b c) ∨
     (∃ d b c, i = .and d b c) ∨ (∃ d b c, i = .or d b c) ∨ (∃ d b, i = .not d b) ∨ (∃ d b, i = .rmem d b) ∨
     (∃ d, i = .inp d)))

/-- R84, R211 (the spec's decision D3): a fetch with the pc at 32768 raises FetchAddressRange, at the opcode or at an
operand, and the pc does not wrap. -/
def Obligations.FetchPastTheTopIsRaised : Prop :=
  (∀ s : State, s.halted = false → s.pc = 32768#16 →
    step s = .next { s with faultCause := 0x62#8, faultPc := 32768#16, faultInfo := 32768#16, halted := true }) ∧
  (∀ (i : Instr) (s : State), i.wf = true → s.halted = false → s.pc.toNat < 32768 →
    32768 < s.pc.toNat + i.length →
    (∀ k, s.pc.toNat + k < 32768 → (encode i)[k]? = some (s.mem.read (s.pc.toNat + k))) →
    step s = .next { s with
      pc := 32768#16, faultCause := 0x62#8, faultPc := s.pc, faultInfo := 32768#16, halted := true })

/-! ### What each instruction does. Each conclusion is the whole next state, so it is the instruction's frame too. -/

/-- R110, R111. -/
def Obligations.HaltAndNoopEffect : Prop :=
  ∀ s : State,
    exec .halt s = .next { s with pc := s.pc + 1#16, halted := true } ∧
    exec .noop s = .next { s with pc := s.pc + 1#16 }

/-- R120. -/
def Obligations.SetEffect : Prop :=
  ∀ (s : State) (d : Reg) (b : Operand) (v : Number), s.value b = some v →
    exec (.set d b) s = .next { s with pc := s.pc + 3#16, regs := s.regs.set d v }

/-- R121; StackOverflow, with a finite depth only, is the spec's decision D10 (R209). -/
def Obligations.PushEffect : Prop :=
  ∀ (s : State) (a : Operand) (v : Number), s.value a = some v →
    (s.cfg.stackDepth ≠ some s.stack.length →
      exec (.push a) s = .next { s with pc := s.pc + 2#16, stack := s.stack ++ [v] }) ∧
    (s.cfg.stackDepth = some s.stack.length →
      exec (.push a) s = .next { s with
        pc := s.pc + 2#16, faultCause := 0x42#8, faultPc := s.pc, faultInfo := 0#16, halted := true })

/-- R122, R208: the top goes to the register; on an empty stack StackUnderflow and no register is written. -/
def Obligations.PopEffect : Prop :=
  (∀ (s : State) (d : Reg) (st : List Number) (r : Number), s.stack = st ++ [r] →
    exec (.pop d) s = .next { s with pc := s.pc + 2#16, stack := st, regs := s.regs.set d r }) ∧
  (∀ (s : State) (d : Reg), s.stack = [] →
    exec (.pop d) s = .next { s with
      pc := s.pc + 2#16, faultCause := 0x41#8, faultPc := s.pc, faultInfo := 0#16, halted := true })

/-- R130, R131: 1 or 0; gt is unsigned and strict. -/
def Obligations.CompareEffect : Prop :=
  ∀ (s : State) (d : Reg) (b c : Operand) (v w : Number), s.value b = some v → s.value c = some w →
    exec (.eq d b c) s =
      .next { s with pc := s.pc + 4#16, regs := s.regs.set d (if v.toNat = w.toNat then 1#15 else 0#15) } ∧
    exec (.gt d b c) s =
      .next { s with pc := s.pc + 4#16, regs := s.regs.set d (if w.toNat < v.toNat then 1#15 else 0#15) }

/-- R140, R141, R142: the target is absolute; nothing but the pc changes. -/
def Obligations.JumpEffect : Prop :=
  ∀ (s : State) (a b : Operand) (v w : Number), s.value a = some v → s.value b = some w →
    exec (.jmp a) s = .next { s with pc := v.setWidth 16 } ∧
    exec (.jt a b) s = .next { s with pc := if v.toNat ≠ 0 then w.setWidth 16 else s.pc + 3#16 } ∧
    exec (.jf a b) s = .next { s with pc := if v.toNat = 0 then w.setWidth 16 else s.pc + 3#16 }

/-- R143: the return address is `ipc + 2`. LinkAddressRange and StackOverflow are the spec's decisions D4 and D10. -/
def Obligations.CallEffect : Prop :=
  ∀ (s : State) (a : Operand) (v : Number), s.value a = some v →
    (s.pc.toNat + 2 < 32768 → s.cfg.stackDepth ≠ some s.stack.length →
      exec (.call a) s = .next { s with
        pc := v.setWidth 16, stack := s.stack ++ [BitVec.ofNat 15 (s.pc.toNat + 2)] }) ∧
    (s.pc.toNat + 2 = 32768 →
      exec (.call a) s = .next { s with
        pc := 32768#16, faultCause := 0x64#8, faultPc := s.pc, faultInfo := 32768#16, halted := true }) ∧
    (s.pc.toNat + 2 < 32768 → s.cfg.stackDepth = some s.stack.length →
      exec (.call a) s = .next { s with
        pc := s.pc + 2#16, faultCause := 0x42#8, faultPc := s.pc, faultInfo := 0#16, halted := true })

/-- R144: to the popped address; on an empty stack a clean halt. -/
def Obligations.RetEffect : Prop :=
  (∀ (s : State) (st : List Number) (r : Number), s.stack = st ++ [r] →
    exec .ret s = .next { s with pc := r.setWidth 16, stack := st }) ∧
  (∀ s : State, s.stack = [] → exec .ret s = .next { s with pc := s.pc + 1#16, halted := true })

/-- R157: "the exact integer result reduced modulo 32768", for add (R150) and mult (R151); and any wrapping width of 15
bits or more gives the same low 15 bits. -/
def Obligations.AddMultAreModular : Prop :=
  ∀ (s : State) (d : Reg) (b c : Operand) (v w : Number), s.value b = some v → s.value c = some w →
    (∃ r : Number, exec (.add d b c) s = .next { s with pc := s.pc + 4#16, regs := s.regs.set d r } ∧
      r.toNat = (v.toNat + w.toNat) % 32768 ∧
      ∀ n, 15 ≤ n → (v.setWidth n + w.setWidth n).setWidth 15 = r) ∧
    (∃ r : Number, exec (.mult d b c) s = .next { s with pc := s.pc + 4#16, regs := s.regs.set d r } ∧
      r.toNat = (v.toNat * w.toNat) % 32768 ∧
      ∀ n, 15 ≤ n → (v.setWidth n * w.setWidth n).setWidth 15 = r)

/-- R158, R207: the unique remainder below the divisor; a zero divisor raises DivideByZero. -/
def Obligations.ModIsTheUniqueRemainder : Prop :=
  ∀ (s : State) (d : Reg) (b c : Operand) (n m : Number), s.value b = some n → s.value c = some m →
    (m ≠ 0#15 → ∃ r : Number,
      exec (.mod d b c) s = .next { s with pc := s.pc + 4#16, regs := s.regs.set d r } ∧
      ∀ x : Nat, (x < m.toNat ∧ ∃ q, n.toNat = q * m.toNat + x) ↔ x = r.toNat) ∧
    (m = 0#15 →
      exec (.mod d b c) s = .next { s with
        pc := s.pc + 4#16, faultCause := 0x31#8, faultPc := s.pc, faultInfo := 0#16, halted := true })

/-- R159: and, or and not act bit by bit on 15 bits; not gives 32767 - v, and twice it gives v back. -/
def Obligations.BitwiseInstructionsActBitByBit : Prop :=
  ∀ (s : State) (d : Reg) (b c : Operand) (v w : Number), s.value b = some v → s.value c = some w →
    (∃ r : Number, exec (.and d b c) s = .next { s with pc := s.pc + 4#16, regs := s.regs.set d r } ∧
      ∀ k, r.getLsbD k = (v.getLsbD k && w.getLsbD k)) ∧
    (∃ r : Number, exec (.or d b c) s = .next { s with pc := s.pc + 4#16, regs := s.regs.set d r } ∧
      ∀ k, r.getLsbD k = (v.getLsbD k || w.getLsbD k)) ∧
    (∃ r : Number, exec (.not d b) s = .next { s with pc := s.pc + 3#16, regs := s.regs.set d r } ∧
      r.toNat = 32767 - v.toNat ∧ r = v ^^^ 0x7FFF#15 ∧
      ∀ t, exec (.not d b) s = .next t → ∀ e : Reg, ∃ u, exec (.not e (.register d)) t = .next u ∧ u.reg e = v)

/-- R170; NonNumberLoad is the spec's decision D5. -/
def Obligations.RmemEffect : Prop :=
  ∀ (s : State) (d : Reg) (b : Operand) (ea : Number), s.value b = some ea →
    ((s.mem.read ea.toNat).toNat < 32768 →
      ∃ v : Number, v.toNat = (s.mem.read ea.toNat).toNat ∧
        exec (.rmem d b) s = .next { s with pc := s.pc + 3#16, regs := s.regs.set d v }) ∧
    (32768 ≤ (s.mem.read ea.toNat).toNat →
      exec (.rmem d b) s = .next { s with
        pc := s.pc + 3#16, faultCause := 0x63#8, faultPc := s.pc, faultInfo := s.mem.read ea.toNat,
        halted := true })

/-- R171: the cell named by the first operand takes the second's value; every other cell, and all else but the pc, is
unchanged. The memory is taken in canonical form, which every step keeps. -/
def Obligations.WmemEffect : Prop :=
  ∀ (s : State) (a b : Operand) (ea v : Number), s.mem.wf = true → s.value a = some ea → s.value b = some v →
    ∃ m : Memory, exec (.wmem a b) s = .next { s with pc := s.pc + 3#16, mem := m } ∧
      (m.read ea.toNat).toNat = v.toNat ∧ ∀ x : Nat, x ≠ ea.toNat → m.read x = s.mem.read x

/-- R180; the host's failure is the spec's decision D14: with HOST_CAN_FAIL false the answer is always ok. -/
def Obligations.OutEffect : Prop :=
  ∀ (s : State) (a : Operand) (v : Number), s.value a = some v →
    (s.cfg.hostCanFail = false ∨ s.host.outFailAt ≠ some s.outTrace.length →
      exec (.out a) s = .next { s with pc := s.pc + 2#16, outTrace := s.outTrace ++ [v] }) ∧
    (s.cfg.hostCanFail = true → s.host.outFailAt = some s.outTrace.length →
      exec (.out a) s = .next { s with
        pc := s.pc + 2#16, faultCause := 0x52#8, faultPc := s.pc, faultInfo := 0#16, halted := true })

/-- R181, R214: one value in 0 .. IN_MAX is consumed and written; end of input and failure raise their faults. (The
form of the host's answers is the model's, log 5.) -/
def Obligations.InEffect : Prop :=
  ∀ (s : State) (d : Reg),
    (∀ v : Number, s.host.input[s.inPos]? = some v → v.toNat ≤ s.cfg.inMax.toNat →
      exec (.inp d) s = .next { s with pc := s.pc + 2#16, inPos := s.inPos + 1, regs := s.regs.set d v }) ∧
    (s.host.input.length ≤ s.inPos → s.host.inputEnd = .eof →
      exec (.inp d) s = .next { s with
        pc := s.pc + 2#16, faultCause := 0x51#8, faultPc := s.pc, faultInfo := 0#16, halted := true }) ∧
    (s.host.input.length ≤ s.inPos → s.host.inputEnd = .failed → s.cfg.hostCanFail = true →
      exec (.inp d) s = .next { s with
        pc := s.pc + 2#16, faultCause := 0x52#8, faultPc := s.pc, faultInfo := 0#16, halted := true })

/-- R181, R229: while the host has not answered, the state is the one before the instruction (the model's stutter,
log 6). -/
def Obligations.InHoldsUntilTheHostAnswers : Prop :=
  ∀ (s : State) (d : Reg), s.host.input.length ≤ s.inPos → s.host.inputEnd = .silent →
    exec (.inp d) s = .next s

/-- R43, R181: what a completed `in` wrote is the next value of INPUT and lies in 0 .. IN_MAX. -/
def Obligations.InWritesTheNextInputValue : Prop :=
  ∀ (s t : State) (d : Reg), exec (.inp d) s = .next t → t.inPos ≠ s.inPos →
    t.inPos = s.inPos + 1 ∧ s.host.input[s.inPos]? = some (t.reg d) ∧ (t.reg d).toNat ≤ s.cfg.inMax.toNat

/-! ### Frames, over all 22 instructions -/

/-- R22, R23: no register but the destination changes (and none at all where there is no destination); the register a
destination names holds what is written to it, whichever register it is. -/
def Obligations.OnlyTheDestinationRegisterChanges : Prop :=
  (∀ (i : Instr) (s t : State), exec i s = .next t → ∀ r : Reg, i.dest? ≠ some r → t.reg r = s.reg r) ∧
  (∀ (s : State) (d : Reg) (n : Number), ∃ t, exec (.set d (.number n)) s = .next t ∧ t.reg d = n)

/-- R41, R59: every cell of memory is unchanged but the one a `wmem` stores to, whose address is its first operand's
value. -/
def Obligations.OnlyWmemChangesOneCell : Prop :=
  ∀ (i : Instr) (s t : State), exec i s = .next t →
    ((∀ a b, i ≠ .wmem a b) → ∀ x : Nat, t.mem.read x = s.mem.read x) ∧
    (∀ a b ea, i = .wmem a b → s.value a = some ea →
      ∀ x : Nat, x ≠ ea.toNat → t.mem.read x = s.mem.read x)

/-- R27: the stack is reached only by push, pop, call and ret, and only at the top. -/
def Obligations.StackChangesOnlyAtTheTop : Prop :=
  ∀ (i : Instr) (s t : State), exec i s = .next t →
    t.stack = s.stack ∨
    (((∃ a, i = .push a) ∨ ∃ a, i = .call a) ∧ ∃ v, t.stack = s.stack ++ [v]) ∧ t.halted = s.halted ∨
    (((∃ d, i = .pop d) ∨ i = .ret) ∧ ∃ v, s.stack = t.stack ++ [v])

/-- R42, R43, R56: only `out` emits, one value, its operand's; only `in` consumes, one value; and no instruction changes
the parameters or the host's script (log 4, log 5). -/
def Obligations.OnlyOutEmitsAndOnlyInConsumes : Prop :=
  ∀ (i : Instr) (s t : State), exec i s = .next t →
    (t.outTrace = s.outTrace ∨ ∃ a v, i = .out a ∧ s.value a = some v ∧ t.outTrace = s.outTrace ++ [v]) ∧
    (t.inPos = s.inPos ∨ (∃ d, i = .inp d) ∧ t.inPos = s.inPos + 1) ∧
    t.cfg = s.cfg ∧ t.host = s.host

/-- R203 (decision D7), R31: an instruction either leaves the fault record alone, and the halt flag too unless it halts
cleanly, or raises one fault and does nothing else but advance the pc. -/
def Obligations.FaultRecordFrame : Prop :=
  ∀ (i : Instr) (s t : State), exec i s = .next t →
    (t.faultCause = s.faultCause ∧ t.faultPc = s.faultPc ∧ t.faultInfo = s.faultInfo ∧
      (t.halted = s.halted ∨ i = .halt ∨ i = .ret ∧ s.stack = [])) ∨
    (∃ (c : BitVec 8) (x : Cell), c ∈ recordCodes ∧ c ≠ 0#8 ∧
      t = { s with
        pc := s.pc + BitVec.ofNat 16 i.length, faultCause := c, faultPc := s.pc, faultInfo := x, halted := true })

/-! ### Whole-machine rules -/

/-- R203 (decisions D7, D9): a fault is precise: from a state with no fault, a step that records one changes nothing but
the record, the halt flag and the pc, which has passed at most four cells and never left 0 .. 32768. -/
def Obligations.FaultsArePrecise : Prop :=
  ∀ s t : State, s.pc.toNat ≤ 32768 → s.faultCause = 0#8 → step s = .next t → t.faultCause ≠ 0#8 →
    t = { s with
      pc := t.pc, faultCause := t.faultCause, faultPc := s.pc, faultInfo := t.faultInfo, halted := true } ∧
    t.faultCause ∈ recordCodes ∧
    s.pc.toNat ≤ t.pc.toNat ∧ t.pc.toNat ≤ s.pc.toNat + 4 ∧ t.pc.toNat ≤ 32768

/-- R201, R210: which execute faults each instruction can raise, once decoded. DataAddressRange (0x61) is among none of
them: no state raises it (C6, D19). -/
def Obligations.ExecuteFaultsOfEachInstruction : Prop :=
  ∀ (i : Instr) (s t : State), i.wf = true → s.faultCause = 0#8 → exec i s = .next t →
    t.faultCause = 0#8 ∨
    (t.faultCause = 0x31#8 ∧ ∃ d b c, i = .mod d b c) ∨
    (t.faultCause = 0x41#8 ∧ ∃ d, i = .pop d) ∨
    (t.faultCause = 0x42#8 ∧ s.cfg.stackDepth ≠ none ∧ ((∃ a, i = .push a) ∨ ∃ a, i = .call a)) ∨
    (t.faultCause = 0x51#8 ∧ ∃ d, i = .inp d) ∨
    (t.faultCause = 0x52#8 ∧ s.cfg.hostCanFail = true ∧ ((∃ a, i = .out a) ∨ ∃ d, i = .inp d)) ∨
    (t.faultCause = 0x63#8 ∧ ∃ d b, i = .rmem d b) ∨
    (t.faultCause = 0x64#8 ∧ ∃ a, i = .call a)

/-- R90, R218 (decision D6): every decode fault comes before any execute fault and before any effect: a step that meets
one takes it, whatever the stack, the registers and the host. -/
def Obligations.DecodeFaultsComeFirst : Prop :=
  ∀ (s : State) (r : Reject), s.halted = false → decode s.window = .error r →
    ∃ (c : BitVec 8) (x : Cell),
      step s = .next { s with
        pc := s.pc + BitVec.ofNat 16 r.used, faultCause := c, faultPc := s.pc, faultInfo := x, halted := true } ∧
      (r.why = .outOfCells ∧ c = 0x62#8 ∧ x = 32768#16 ∨
       (∃ y, r.why = .illegalOpcode y ∧ c = 0x21#8 ∧ x = y ∧ s.window[r.used - 1]? = some y) ∨
       (∃ y, r.why = .invalidOperand y ∧ c = 0x22#8 ∧ x = y ∧ s.window[r.used - 1]? = some y) ∨
       (∃ y, r.why = .invalidDestination y ∧ c = 0x23#8 ∧ x = y ∧ s.window[r.used - 1]? = some y))

/-- R36: the invariant holds when reset is released, whatever the image, the parameters and the host's script. -/
def Obligations.InvariantHoldsAfterReset : Prop :=
  State.reset.Inv ∧ ∀ (cfg : Config) (host : HostScript) (image : List Cell),
    (State.boot cfg host (Memory.ofImage image)).Inv

/-- R36, R26, R29, R32: every step keeps the invariant, from every state that has it. -/
def Obligations.EveryStepKeepsTheInvariant : Prop :=
  ∀ s t : State, s.Inv → step s = .next t → t.Inv

/-- R36: "In every state reachable from reset", the host doing whatever R44 lets it do. -/
def Obligations.ReachableStatesHaveTheInvariant : Prop :=
  ∀ s : State, Reachable s → s.Inv

/-- R36, R51: a cell the program changes holds a number afterwards. (In a canonical memory, which every step keeps.) -/
def Obligations.ProgramsWriteOnlyNumbers : Prop :=
  ∀ (s t : State) (a : Nat), s.mem.wf = true → step s = .next t → t.mem.read a ≠ s.mem.read a → (t.mem.read a).toNat ≤ 32767

/-- R52: "`wmem(a, x); rmem(a) == x` for any a in [0, 32767]", for any two ways to name the address. -/
def Obligations.StoreThenLoadGivesTheValue : Prop :=
  ∀ (s t : State) (a b a' : Operand) (ea v : Number) (d : Reg), s.mem.wf = true →
    s.value a = some ea → s.value b = some v → t.value a' = some ea → exec (.wmem a b) s = .next t →
    ∃ u, exec (.rmem d a') t = .next u ∧ u.reg d = v ∧ u.faultCause = s.faultCause ∧ u.halted = s.halted

/-- R62: a `wmem` is seen by the very next fetch, opcode or operand, also in its own cells. -/
def Obligations.StoreIsSeenByTheNextFetch : Prop :=
  ∀ (s t : State) (a b : Operand) (ea v : Number) (k : Nat), s.mem.wf = true →
    s.value a = some ea → s.value b = some v → exec (.wmem a b) s = .next t →
    k < 4 → t.pc.toNat + k = ea.toNat → t.window[k]? = some (numCell v)

/-- R28: Push appends at the top; Pop takes the top, or reports empty and changes nothing, which `ret` turns into a clean
halt and `pop` into StackUnderflow; `push` then `pop` gives the value and the stack back. -/
def Obligations.StackIsLastInFirstOut : Prop :=
  (∀ (s : State) (v : Number), (s.pushed v).stack = s.stack ++ [v] ∧ (s.pushed v).top = some v ∧
    (s.pushed v).popped = s) ∧
  (∀ s : State, s.stack = [] → s.top = none ∧ s.popped = s ∧
    (∃ t, exec .ret s = .next t ∧ t.halted = true ∧ t.faultCause = s.faultCause ∧ t.stack = []) ∧
    (∀ d, ∃ t, exec (.pop d) s = .next t ∧ t.faultCause = 0x41#8 ∧ t.stack = [])) ∧
  (∀ (s : State) (st : List Number) (r : Number), s.stack = st ++ [r] → s.top = some r ∧ s.popped.stack = st) ∧
  (∀ (s t : State) (a : Operand) (v : Number) (d : Reg), s.value a = some v →
    s.cfg.stackDepth ≠ some s.stack.length → exec (.push a) s = .next t →
    ∃ u, exec (.pop d) t = .next u ∧ u.stack = s.stack ∧ u.reg d = v)

/-- R143, R144: from a call, whatever runs in between, a `ret` that meets the stack as the call left it goes to the cell
after the call and leaves the stack as it was before the call. -/
def Obligations.RetAfterCallReturnsBehindTheCall : Prop :=
  ∀ (s t u : State) (a : Operand) (v : Number), s.value a = some v → s.pc.toNat + 2 < 32768 →
    s.cfg.stackDepth ≠ some s.stack.length → exec (.call a) s = .next t → u.stack = t.stack →
    ∃ w, exec .ret u = .next w ∧ w.pc.toNat = s.pc.toNat + 2 ∧ w.stack = s.stack ∧ w.halted = u.halted

/-- R56, R226: an instruction other than `out` and `in` does not depend on the host, and leaves its script alone. -/
def Obligations.OnlyPortInstructionsDependOnTheHost : Prop :=
  ∀ (i : Instr) (s : State) (h : HostScript), (∀ a, i ≠ .out a) → (∀ d, i ≠ .inp d) →
    ∃ t, exec i s = .next t ∧ exec i { s with host := h } = .next { t with host := h }

/-- R32: no instruction reads the fault record: with any other record, the same instruction gives the same state but for
the record. -/
def Obligations.NoInstructionReadsTheFaultRecord : Prop :=
  ∀ (i : Instr) (s t : State) (c : BitVec 8) (p : Pc) (x : Cell), exec i s = .next t →
    ∃ t', exec i { s with faultCause := c, faultPc := p, faultInfo := x } = .next t' ∧
      { t' with faultCause := t.faultCause, faultPc := t.faultPc, faultInfo := t.faultInfo } = t

/-! ### Reset, the image and the host's report -/

/-- R37, R57: the state on release of reset. (The fault record's zeros are the spec's decision D7.) -/
def Obligations.ResetLeavesTheStatedValues : Prop :=
  ∀ (cfg : Config) (host : HostScript) (image : List Cell), image.length ≤ 32768 →
    let s := State.boot cfg host (Memory.ofImage image)
    (∀ i : Reg, s.reg i = 0#15) ∧ s.pc = 0#16 ∧ s.stack = [] ∧ s.halted = false ∧
    s.faultCause = 0#8 ∧ s.faultPc = 0#16 ∧ s.faultInfo = 0#16 ∧ s.outTrace = [] ∧ s.inPos = 0 ∧
    (∀ a : Nat, a < image.length → some (s.mem.read a) = image[a]?) ∧
    (∀ a : Nat, image.length ≤ a → s.mem.read a = 0#16)

/-- R240 (decision D15): reset discards everything: the state after it does not depend on the state before it, but for
the parameters and the host's script, which are the model's own fields (log 4, log 5). -/
def Obligations.ResetDiscardsTheState : Prop :=
  ∀ (s t : State) (image : List Cell), s.cfg = t.cfg → s.host = t.host →
    s.afterReset image = t.afterReset image ∧ (s.afterReset image).halted = false ∧
    (s.afterReset image).mem = Memory.ofImage image

/-- R54, R66: an odd or too long image fails to load; any other gives half as many cells as bytes, low byte first. (That an
odd image longer than 65536 bytes fails as an odd one is the model's choice, log 15.) -/
def Obligations.ImageBytesBecomeCells : Prop :=
  ∀ bytes : List Byte,
    (bytes.length % 2 = 1 → loadImage (some bytes) = .error .oddLength) ∧
    (bytes.length % 2 = 0 → 65536 < bytes.length → loadImage (some bytes) = .error .tooLong) ∧
    (bytes.length % 2 = 0 → bytes.length ≤ 65536 →
      ∃ cells, loadImage (some bytes) = .ok cells ∧ 2 * cells.length = bytes.length ∧
        ∀ (k : Nat) (lo hi : Byte), bytes[2 * k]? = some lo → bytes[2 * k + 1]? = some hi →
          ∃ c, cells[k]? = some c ∧ c.toNat = lo.toNat + 256 * hi.toNat)

/-- R31, R215 (decision D21): the host exits with 0 on a clean halt, with a code of 1 .. 255 on a fault, and not at all
while the machine runs; the fault's kind is the code's high four bits. -/
def Obligations.ExitCodeTellsCleanHaltFromFault : Prop :=
  (∀ s : State, s.halted = false → s.exitCode = none) ∧
  (∀ s : State, s.halted = true → s.faultCause = 0#8 → s.exitCode = some 0) ∧
  (∀ s : State, s.halted = true → s.faultCause ≠ 0#8 → ∃ n, s.exitCode = some n ∧ 1 ≤ n ∧ n ≤ 255) ∧
  (∀ c : BitVec 8, (faultKind c).toNat = c.toNat / 16)
end

