-- ==== Sys2Proof/Laws/Decode.lean ====
section
/-! SUPPORT. What the classifier, `FetchS` and `FetchD` do, case by case (R82, R86 to R88). -/

namespace Sys2Proof

@[simp] theorem numCell_toNat (n : Number) : (numCell n).toNat = n.toNat := by
  have := n.isLt
  simp only [numCell, BitVec.toNat_setWidth]
  omega

@[simp] theorem regCell_toNat (i : Reg) : (regCell i).toNat = 32768 + i.val := by
  have := i.isLt
  simp only [regCell, regBase, BitVec.toNat_ofNat]
  omega

theorem refReg_val (x : Cell) : (refReg x).val = (x.toNat - 32768) % 8 := rfl

theorem classify_of_number {x : Cell} (h : x.toNat < 32768) : classify x = .number (x.setWidth 15) := by
  rw [classify, if_pos (show x.toNat < regBase from h)]

theorem classify_of_register {x : Cell} (h : 32768 ≤ x.toNat) (h' : x.toNat < 32776) :
    classify x = .register (refReg x) := by
  rw [classify, if_neg (show ¬ x.toNat < regBase from Nat.not_lt.2 h), if_pos (show x.toNat < invalidBase from h')]

theorem classify_of_invalid {x : Cell} (h : 32776 ≤ x.toNat) : classify x = .invalid x := by
  rw [classify, if_neg (show ¬ x.toNat < regBase from Nat.not_lt.2 (Nat.le_trans (by decide) h)),
    if_neg (show ¬ x.toNat < invalidBase from Nat.not_lt.2 h)]

@[simp] theorem classify_numCell (n : Number) : classify (numCell n) = .number n := by
  rw [classify_of_number (by rw [numCell_toNat]; exact n.isLt)]
  simp [numCell]

@[simp] theorem classify_regCell (i : Reg) : classify (regCell i) = .register i := by
  have := i.isLt
  have hi := regCell_toNat i
  rw [classify_of_register (by omega) (by omega)]
  exact congrArg Operand.register (Fin.ext (by rw [refReg_val, hi]; omega))

/-- Classifying and writing back gives the cell: no operand bit is lost. -/
theorem cell_classify (x : Cell) : (classify x).cell = x := by
  have := x.isLt
  apply BitVec.eq_of_toNat_eq
  by_cases h : x.toNat < 32768
  · rw [classify_of_number h]
    simp only [Operand.cell, numCell_toNat, BitVec.toNat_setWidth]
    omega
  · by_cases h' : x.toNat < 32776
    · rw [classify_of_register (by omega) h']
      simp only [Operand.cell, regCell_toNat, refReg_val]
      omega
    · rw [classify_of_invalid (by omega)]
      rfl

@[simp] theorem classify_cell_of_wf {x : Operand} (h : x.wf = true) : classify x.cell = x := by
  cases x with
  | number n => exact classify_numCell n
  | register i => exact classify_regCell i
  | invalid c => simp [Operand.wf] at h

/-- All `FetchS` can do (R87). -/
theorem srcAt_eq_ok {cells : List Cell} {k : Nat} {o : Operand} :
    srcAt cells k = .ok o ↔ cells[k]? = some o.cell ∧ o.wf = true := by
  unfold srcAt
  cases hx : cells[k]? with
  | none => simp
  | some x =>
    have hc := cell_classify x
    constructor
    · intro h
      cases hcl : classify x <;> rw [hcl] at hc <;> simp only [hcl, reduceCtorEq, Except.ok.injEq] at h <;>
        subst h <;> simp [hc, Operand.wf]
    · rintro ⟨h, hw⟩
      obtain rfl : x = o.cell := by simpa using h
      simp only [classify_cell_of_wf hw]
      cases o <;> simp_all [Operand.wf]

/-- All `FetchD` can do (R88). -/
theorem dstAt_eq_ok {cells : List Cell} {k : Nat} {d : Reg} :
    dstAt cells k = .ok d ↔ cells[k]? = some (regCell d) := by
  unfold dstAt
  cases hx : cells[k]? with
  | none => simp
  | some x =>
    have hc := cell_classify x
    constructor
    · intro h
      cases hcl : classify x <;> rw [hcl] at hc <;> simp only [hcl, reduceCtorEq, Except.ok.injEq] at h
      subst h
      simpa [Operand.cell] using hc.symm
    · intro h
      obtain rfl : x = regCell d := by simpa using h
      simp

theorem srcAt_of_none {cells : List Cell} {k : Nat} (h : cells[k]? = none) :
    srcAt cells k = .error ⟨.outOfCells, k⟩ := by
  simp [srcAt, h]

theorem dstAt_of_none {cells : List Cell} {k : Nat} (h : cells[k]? = none) :
    dstAt cells k = .error ⟨.outOfCells, k⟩ := by
  simp [dstAt, h]

theorem srcAt_of_invalid {cells : List Cell} {k : Nat} {x : Cell} (h : cells[k]? = some x) (hx : 32776 ≤ x.toNat) :
    srcAt cells k = .error ⟨.invalidOperand x, k + 1⟩ := by
  simp [srcAt, h, classify_of_invalid hx]

theorem dstAt_of_bad {cells : List Cell} {k : Nat} {x : Cell} (h : cells[k]? = some x)
    (hx : x.toNat < 32768 ∨ 32776 ≤ x.toNat) : dstAt cells k = .error ⟨.invalidDestination x, k + 1⟩ := by
  rcases hx with hx | hx
  · simp [dstAt, h, classify_of_number hx]
  · simp [dstAt, h, classify_of_invalid hx]

theorem decode_cons (op : Cell) (rest : List Cell) : decode (op :: rest) = decodeOp op (op :: rest) := rfl

@[simp] theorem decode_nil : decode [] = .error ⟨.outOfCells, 0⟩ := rfl

/-! What each format accepts (R80, R89). -/

theorem decodeFS_eq_ok {mk : Operand → Instr} {cells : List Cell} {i : Instr} :
    decodeFS mk cells = .ok i ↔ ∃ a, (cells[1]? = some a.cell ∧ a.wf = true) ∧ mk a = i := by
  simp only [← srcAt_eq_ok]
  unfold decodeFS
  cases srcAt cells 1 <;> simp [bind, Except.bind, pure, Except.pure]

theorem decodeFD_eq_ok {mk : Reg → Instr} {cells : List Cell} {i : Instr} :
    decodeFD mk cells = .ok i ↔ ∃ d, cells[1]? = some (regCell d) ∧ mk d = i := by
  simp only [← dstAt_eq_ok]
  unfold decodeFD
  cases dstAt cells 1 <;> simp [bind, Except.bind, pure, Except.pure]

theorem decodeFDS_eq_ok {mk : Reg → Operand → Instr} {cells : List Cell} {i : Instr} :
    decodeFDS mk cells = .ok i ↔
      ∃ d b, cells[1]? = some (regCell d) ∧ (cells[2]? = some b.cell ∧ b.wf = true) ∧ mk d b = i := by
  simp only [← dstAt_eq_ok, ← srcAt_eq_ok]
  unfold decodeFDS
  cases dstAt cells 1 <;> cases srcAt cells 2 <;> simp [bind, Except.bind, pure, Except.pure]

theorem decodeFSS_eq_ok {mk : Operand → Operand → Instr} {cells : List Cell} {i : Instr} :
    decodeFSS mk cells = .ok i ↔
      ∃ a b, (cells[1]? = some a.cell ∧ a.wf = true) ∧ (cells[2]? = some b.cell ∧ b.wf = true) ∧ mk a b = i := by
  simp only [← srcAt_eq_ok]
  unfold decodeFSS
  cases srcAt cells 1 <;> cases srcAt cells 2 <;> simp [bind, Except.bind, pure, Except.pure]

theorem decodeFDSS_eq_ok {mk : Reg → Operand → Operand → Instr} {cells : List Cell} {i : Instr} :
    decodeFDSS mk cells = .ok i ↔
      ∃ d b c, cells[1]? = some (regCell d) ∧ (cells[2]? = some b.cell ∧ b.wf = true) ∧
        (cells[3]? = some c.cell ∧ c.wf = true) ∧ mk d b c = i := by
  simp only [← dstAt_eq_ok, ← srcAt_eq_ok]
  unfold decodeFDSS
  cases dstAt cells 1 <;> cases srcAt cells 2 <;> cases srcAt cells 3 <;>
    simp [bind, Except.bind, pure, Except.pure]

/-! Where a rejection comes from (R90): the first operand cell that is missing or bad. -/

/-- A rejection reports a missing cell at its own offset, or quotes the last cell it used. -/
def Reject.Quotes (cells : List Cell) (r : Reject) : Prop :=
  (r.why = .outOfCells ∧ cells[r.used]? = none) ∨
  ∃ x, cells[r.used - 1]? = some x ∧
    (r.why = .illegalOpcode x ∨ r.why = .invalidOperand x ∨ r.why = .invalidDestination x)

theorem srcAt_ok_lt {cells : List Cell} {k : Nat} {o : Operand} (h : srcAt cells k = .ok o) : k + 1 ≤ cells.length :=
  (List.getElem?_eq_some_iff.1 (srcAt_eq_ok.1 h).1).1

theorem dstAt_ok_lt {cells : List Cell} {k : Nat} {d : Reg} (h : dstAt cells k = .ok d) : k + 1 ≤ cells.length :=
  (List.getElem?_eq_some_iff.1 (dstAt_eq_ok.1 h)).1

/-- A rejection by one of the operand fetches of a format: at offset `k`, the cells before it being there. -/
def OperandRejects (cells : List Cell) (r : Reject) : Prop :=
  ∃ k, 1 ≤ k ∧ k ≤ 3 ∧ k ≤ cells.length ∧ (srcAt cells k = .error r ∨ dstAt cells k = .error r)

theorem decodeFS_error {mk : Operand → Instr} {cells : List Cell} {r : Reject} (hc : 1 ≤ cells.length)
    (h : decodeFS mk cells = .error r) : OperandRejects cells r := by
  unfold decodeFS at h
  cases h1 : srcAt cells 1 with
  | error e => rw [h1] at h; cases h; exact ⟨1, by decide, by decide, hc, .inl h1⟩
  | ok _ => rw [h1] at h; cases h

theorem decodeFD_error {mk : Reg → Instr} {cells : List Cell} {r : Reject} (hc : 1 ≤ cells.length)
    (h : decodeFD mk cells = .error r) : OperandRejects cells r := by
  unfold decodeFD at h
  cases h1 : dstAt cells 1 with
  | error e => rw [h1] at h; cases h; exact ⟨1, by decide, by decide, hc, .inr h1⟩
  | ok _ => rw [h1] at h; cases h

theorem decodeFDS_error {mk : Reg → Operand → Instr} {cells : List Cell} {r : Reject} (hc : 1 ≤ cells.length)
    (h : decodeFDS mk cells = .error r) : OperandRejects cells r := by
  unfold decodeFDS at h
  cases h1 : dstAt cells 1 with
  | error e => rw [h1] at h; cases h; exact ⟨1, by decide, by decide, hc, .inr h1⟩
  | ok _ =>
    rw [h1] at h
    cases h2 : srcAt cells 2 with
    | error e => rw [h2] at h; cases h; exact ⟨2, by decide, by decide, dstAt_ok_lt h1, .inl h2⟩
    | ok _ => rw [h2] at h; cases h

theorem decodeFSS_error {mk : Operand → Operand → Instr} {cells : List Cell} {r : Reject} (hc : 1 ≤ cells.length)
    (h : decodeFSS mk cells = .error r) : OperandRejects cells r := by
  unfold decodeFSS at h
  cases h1 : srcAt cells 1 with
  | error e => rw [h1] at h; cases h; exact ⟨1, by decide, by decide, hc, .inl h1⟩
  | ok _ =>
    rw [h1] at h
    cases h2 : srcAt cells 2 with
    | error e => rw [h2] at h; cases h; exact ⟨2, by decide, by decide, srcAt_ok_lt h1, .inl h2⟩
    | ok _ => rw [h2] at h; cases h

theorem decodeFDSS_error {mk : Reg → Operand → Operand → Instr} {cells : List Cell} {r : Reject} (hc : 1 ≤ cells.length)
    (h : decodeFDSS mk cells = .error r) : OperandRejects cells r := by
  unfold decodeFDSS at h
  cases h1 : dstAt cells 1 with
  | error e => rw [h1] at h; cases h; exact ⟨1, by decide, by decide, hc, .inr h1⟩
  | ok _ =>
    rw [h1] at h
    cases h2 : srcAt cells 2 with
    | error e => rw [h2] at h; cases h; exact ⟨2, by decide, by decide, dstAt_ok_lt h1, .inl h2⟩
    | ok _ =>
      rw [h2] at h
      cases h3 : srcAt cells 3 with
      | error e => rw [h3] at h; cases h; exact ⟨3, by decide, by decide, srcAt_ok_lt h2, .inl h3⟩
      | ok _ => rw [h3] at h; cases h

/-- All the ways a sequence of cells is rejected: it is empty, its opcode is none, or an operand fetch rejects it. -/
theorem decode_error_cases {cells : List Cell} {r : Reject} (h : decode cells = .error r) :
    (cells = [] ∧ r = ⟨.outOfCells, 0⟩) ∨
    (∃ op rest, cells = op :: rest ∧ 22 ≤ op.toNat ∧ r = ⟨.illegalOpcode op, 1⟩) ∨
    (∃ op rest, cells = op :: rest ∧ op.toNat ≤ 21 ∧ OperandRejects cells r) := by
  cases cells with
  | nil => cases h; exact .inl ⟨rfl, rfl⟩
  | cons op rest =>
    right
    rw [decode_cons] at h
    by_cases hop : op.toNat ≤ 21
    · refine .inr ⟨op, rest, rfl, hop, ?_⟩
      unfold decodeOp at h
      split at h <;>
        try first
        | exact decodeFS_error (Nat.le_add_left 1 _) h
        | exact decodeFD_error (Nat.le_add_left 1 _) h
        | exact decodeFDS_error (Nat.le_add_left 1 _) h
        | exact decodeFSS_error (Nat.le_add_left 1 _) h
        | exact decodeFDSS_error (Nat.le_add_left 1 _) h
        | cases h
      exfalso
      interval_cases hn : op.toNat <;> simp_all
    · refine .inl ⟨op, rest, rfl, by omega, ?_⟩
      unfold decodeOp at h
      split at h <;> first | omega | exact (Except.error.inj h).symm

theorem srcAt_quotes {cells : List Cell} {k : Nat} {r : Reject} (h : srcAt cells k = .error r) :
    r.Quotes cells ∧ r.used ≤ k + 1 ∧ (k ≤ cells.length → r.used ≤ cells.length) := by
  unfold srcAt at h
  split at h
  · cases h
    exact ⟨.inl ⟨rfl, by assumption⟩, by simp, id⟩
  · rename_i hx
    have hk := (List.getElem?_eq_some_iff.1 hx).1
    split at h <;> cases h
    exact ⟨.inr ⟨_, by simpa, .inr (.inl rfl)⟩, by simp, fun _ => hk⟩

theorem dstAt_quotes {cells : List Cell} {k : Nat} {r : Reject} (h : dstAt cells k = .error r) :
    r.Quotes cells ∧ r.used ≤ k + 1 ∧ (k ≤ cells.length → r.used ≤ cells.length) := by
  unfold dstAt at h
  split at h
  · cases h
    exact ⟨.inl ⟨rfl, by assumption⟩, by simp, id⟩
  · rename_i hx
    have hk := (List.getElem?_eq_some_iff.1 hx).1
    split at h <;> cases h <;> exact ⟨.inr ⟨_, by simpa, .inr (.inr rfl)⟩, by simp, fun _ => hk⟩

/-- A rejection names the cell it is about; at most four cells have been fetched, and all of them were there. -/
theorem decode_quotes {cells : List Cell} {r : Reject} (h : decode cells = .error r) :
    r.Quotes cells ∧ r.used ≤ 4 ∧ r.used ≤ cells.length := by
  rcases decode_error_cases h with ⟨rfl, rfl⟩ | ⟨op, rest, rfl, _, rfl⟩ | ⟨op, rest, _, _, k, _, hk, hl, hs | hd⟩
  · exact ⟨.inl ⟨rfl, rfl⟩, by simp, by simp⟩
  · exact ⟨.inr ⟨op, rfl, .inl rfl⟩, by simp, by simp⟩
  · have hq := srcAt_quotes hs
    exact ⟨hq.1, by omega, hq.2.2 hl⟩
  · have hq := dstAt_quotes hd
    exact ⟨hq.1, by omega, hq.2.2 hl⟩

end Sys2Proof
end

