-- ==== Sys2Proof/Laws/Memory.lean ====
section
/-! SUPPORT. What the memory operations do (R52): read after write, the canonical form kept, the loaded image (R57), and the
cells a fetch sees (R84). -/

namespace Sys2Proof.Machine

/-- Nothing is listed below the bound of a canonical memory. -/
theorem Memory.read_of_lt_bound {lo : Nat} {m : Memory} (h : m.wfFrom lo = true) {a : Nat} (ha : a < lo) :
    m.read a = unlisted := by
  induction m generalizing lo with
  | nil => rfl
  | cons e rest ih =>
    obtain ⟨k, v⟩ := e
    simp only [Memory.wfFrom, Bool.and_eq_true, decide_eq_true_eq] at h
    have hk : k ≠ a := by omega
    simp [Memory.read, hk, ih h.2 (by omega)]

theorem Memory.wfFrom_mono {lo lo' : Nat} {m : Memory} (h : m.wfFrom lo = true) (hle : lo' ≤ lo) :
    m.wfFrom lo' = true := by
  cases m with
  | nil => rfl
  | cons e rest =>
    obtain ⟨k, v⟩ := e
    simp only [Memory.wfFrom, Bool.and_eq_true, decide_eq_true_eq] at h ⊢
    exact ⟨⟨⟨by omega, h.1.1.2⟩, h.1.2⟩, h.2⟩

theorem Memory.wfFrom_head {lo k : Nat} {v : Cell} {rest : Memory} (h : Memory.wfFrom lo ((k, v) :: rest) = true) :
    Memory.wfFrom k ((k, v) :: rest) = true := by
  simp only [Memory.wfFrom, Bool.and_eq_true, decide_eq_true_eq] at h ⊢
  exact ⟨⟨⟨Nat.le_refl k, h.1.1.2⟩, h.1.2⟩, h.2⟩

theorem Memory.wfFrom_list {lo a : Nat} {v : Cell} {m : Memory} (h : m.wfFrom (a + 1) = true) (hlo : lo ≤ a)
    (ha : a < memCells) : (Memory.list a v m).wfFrom lo = true := by
  unfold Memory.list
  split
  · exact Memory.wfFrom_mono h (by omega)
  · simp_all [Memory.wfFrom]

theorem Memory.wfFrom_write {lo a : Nat} {v : Cell} {m : Memory} (h : m.wfFrom lo = true) (hlo : lo ≤ a)
    (ha : a < memCells) : (m.write a v).wfFrom lo = true := by
  induction m generalizing lo with
  | nil => exact Memory.wfFrom_list (by rfl) hlo ha
  | cons e rest ih =>
    obtain ⟨k, w⟩ := e
    have h' := h
    simp only [Memory.wfFrom, Bool.and_eq_true, decide_eq_true_eq] at h
    unfold Memory.write
    split
    · exact Memory.wfFrom_list (Memory.wfFrom_mono (Memory.wfFrom_head h') (by omega)) hlo ha
    · split
      · subst a; exact Memory.wfFrom_list h.2 hlo ha
      · simp only [Memory.wfFrom, Bool.and_eq_true, decide_eq_true_eq]
        exact ⟨h.1, ih h.2 (by omega)⟩

/-- A write of a cell that exists keeps the canonical form. -/
theorem Memory.wf_write {m : Memory} {a : Nat} {v : Cell} (h : m.wf = true) (ha : a < memCells) :
    (m.write a v).wf = true :=
  Memory.wfFrom_write h (Nat.zero_le a) ha

theorem Memory.wf_writeCells {m : Memory} (h : m.wf = true) (a : Nat) (cs : List Cell) :
    (m.writeCells a cs).wf = true := by
  induction cs generalizing m a with
  | nil => exact h
  | cons c cs ih =>
    unfold Memory.writeCells
    split
    · exact ih (Memory.wf_write h ‹_›) _
    · exact h

@[simp] theorem Memory.wf_nil : Memory.wf [] = true := rfl

/-- The loader leaves a canonical memory. -/
theorem Memory.wf_ofImage (image : List Cell) : (Memory.ofImage image).wf = true :=
  Memory.wf_writeCells Memory.wf_nil 0 image

theorem Memory.read_list {a : Nat} {v : Cell} {m : Memory} {lo : Nat} (h : m.wfFrom lo = true) (hlo : a < lo) (x : Nat) :
    (Memory.list a v m).read x = if x = a then v else m.read x := by
  unfold Memory.list
  split
  · subst v
    split
    · subst x; exact Memory.read_of_lt_bound h hlo
    · rfl
  · simp only [Memory.read, eq_comm]

theorem Memory.read_write_from {lo a : Nat} {v : Cell} {m : Memory} (h : m.wfFrom lo = true) (x : Nat) :
    (m.write a v).read x = if x = a then v else m.read x := by
  induction m generalizing lo with
  | nil => exact Memory.read_list (lo := a + 1) (by rfl) (by omega) x
  | cons e rest ih =>
    obtain ⟨k, w⟩ := e
    have h' := h
    simp only [Memory.wfFrom, Bool.and_eq_true, decide_eq_true_eq] at h
    unfold Memory.write
    split
    · exact Memory.read_list (Memory.wfFrom_head h') ‹_› x
    · split
      · subst a
        rw [Memory.read_list h.2 (by omega)]
        by_cases hx : x = k
        · rw [if_pos hx, if_pos hx]
        · rw [if_neg hx, if_neg hx, Memory.read, if_neg (Ne.symm hx)]
      · simp only [Memory.read, ih h.2]
        split
        · subst k; simp; omega
        · rfl

/-- `MemWrite` then `MemRead`: the cell written holds the value, every other cell what it held (R52). -/
theorem Memory.read_write {m : Memory} (h : m.wf = true) (a : Nat) (v : Cell) (x : Nat) :
    (m.write a v).read x = if x = a then v else m.read x :=
  Memory.read_write_from h x

/-- A write leaves every other cell alone, in any memory. -/
theorem Memory.read_write_ne {m : Memory} {a x : Nat} (v : Cell) (h : x ≠ a) : (m.write a v).read x = m.read x := by
  have hl : ∀ m : Memory, (Memory.list a v m).read x = m.read x := by
    intro m
    unfold Memory.list
    split
    · rfl
    · simp [Memory.read, h.symm]
  induction m with
  | nil => exact hl []
  | cons e rest ih =>
    obtain ⟨k, w⟩ := e
    unfold Memory.write
    split
    · exact hl _
    · split
      · subst a; simp [hl, Memory.read, h.symm]
      · simp [Memory.read, ih]

/-- A canonical memory lists no cell that does not exist. -/
theorem Memory.read_of_memCells_le {m : Memory} (h : m.wf = true) {a : Nat} (ha : memCells ≤ a) :
    m.read a = unlisted := by
  have key : ∀ (lo : Nat), m.wfFrom lo = true → m.read a = unlisted := by
    clear h
    induction m with
    | nil => intro _ _; rfl
    | cons e rest ih =>
      intro lo h
      obtain ⟨k, v⟩ := e
      simp only [Memory.wfFrom, Bool.and_eq_true, decide_eq_true_eq] at h
      have hk : k ≠ a := by omega
      simp [Memory.read, hk, ih _ h.2]
  exact key 0 h

/-- Two canonical memories that read alike are the same list. -/
theorem Memory.ext_of_read {m m' : Memory} (h : m.wf = true) (h' : m'.wf = true) (e : ∀ a, m.read a = m'.read a) :
    m = m' := by
  have key : ∀ (m m' : Memory) (lo : Nat), m.wfFrom lo = true → m'.wfFrom lo = true →
      (∀ a, m.read a = m'.read a) → m = m' := by
    intro m
    induction m with
    | nil =>
      intro m' lo _ h' e
      cases m' with
      | nil => rfl
      | cons p rest =>
        obtain ⟨k, v⟩ := p
        simp only [Memory.wfFrom, Bool.and_eq_true, decide_eq_true_eq] at h'
        exact absurd (e k) (by simpa [Memory.read, eq_comm] using h'.1.2)
    | cons q r ih =>
      intro m' lo h h' e
      obtain ⟨k, v⟩ := q
      have hk := h
      simp only [Memory.wfFrom, Bool.and_eq_true, decide_eq_true_eq] at h
      cases m' with
      | nil => exact absurd (e k) (by simpa [Memory.read] using h.1.2)
      | cons p rest =>
        obtain ⟨k', v'⟩ := p
        have hk' := h'
        simp only [Memory.wfFrom, Bool.and_eq_true, decide_eq_true_eq] at h'
        have heq : k = k' := by
          rcases Nat.lt_trichotomy k k' with hlt | heq | hgt
          · have h1 := e k
            rw [Memory.read_of_lt_bound (Memory.wfFrom_head hk') hlt] at h1
            exact absurd h1 (by simpa [Memory.read] using h.1.2)
          · exact heq
          · have h1 := e k'
            rw [Memory.read_of_lt_bound (Memory.wfFrom_head hk) hgt] at h1
            exact absurd h1.symm (by simpa [Memory.read] using h'.1.2)
        subst heq
        have hv : v = v' := by simpa [Memory.read] using e k
        subst hv
        congr 1
        refine ih rest (k + 1) h.2 h'.2 fun a => ?_
        by_cases ha : a < k + 1
        · rw [Memory.read_of_lt_bound h.2 ha, Memory.read_of_lt_bound h'.2 ha]
        · have : k ≠ a := by omega
          simpa [Memory.read, this] using e a
  exact key m m' 0 h h' e

theorem Memory.read_writeCells {m : Memory} (h : m.wf = true) (a : Nat) (cs : List Cell) (x : Nat) :
    (m.writeCells a cs).read x =
      if a ≤ x ∧ x < memCells then (cs[x - a]?).getD (m.read x) else m.read x := by
  induction cs generalizing m a with
  | nil => simp [Memory.writeCells]
  | cons c cs ih =>
    unfold Memory.writeCells
    split
    · rename_i ha
      rw [ih (Memory.wf_write h ha), Memory.read_write h]
      by_cases hx : x = a
      · subst hx
        simp [ha]
      · by_cases hax : a ≤ x ∧ x < memCells
        · have h1 : a + 1 ≤ x ∧ x < memCells := by omega
          have h2 : x - a = (x - (a + 1)) + 1 := by omega
          simp [hax, h1, hx, h2]
        · have h1 : ¬(a + 1 ≤ x ∧ x < memCells) := by omega
          rw [if_neg h1, if_neg hax, if_neg hx]
    · rename_i ha
      have : ¬(a ≤ x ∧ x < memCells) := by omega
      simp [this]

/-- The cells a fetch can see: as many as exist, each as memory reads (R84). -/
theorem Memory.cellsFrom_getElem? (m : Memory) (a n k : Nat) :
    (m.cellsFrom a n)[k]? = if k < n ∧ a + k < memCells then some (m.read (a + k)) else none := by
  induction n generalizing a k with
  | zero => simp [Memory.cellsFrom]
  | succ n ih =>
    unfold Memory.cellsFrom
    split
    · rename_i ha
      cases k with
      | zero => simp [ha]
      | succ k =>
        rw [List.getElem?_cons_succ, ih]
        have e : a + 1 + k = a + (k + 1) := by omega
        simp [e]
    · rename_i ha
      rw [if_neg (show ¬(k < n + 1 ∧ a + k < memCells) by omega)]
      rfl

theorem State.window_getElem? (s : State) (k : Nat) :
    s.window[k]? = if k < 4 ∧ s.pc.toNat + k < memCells then some (s.mem.read (s.pc.toNat + k)) else none := by
  simp [State.window, Memory.cellsFrom_getElem?, maxLength]

/-- A fetch that is in range sees the opcode cell first. -/
theorem State.window_of_lt {s : State} (h : s.pc.toNat < memCells) :
    s.window = s.mem.read s.pc.toNat :: s.mem.cellsFrom (s.pc.toNat + 1) 3 := by
  rw [State.window, maxLength, Memory.cellsFrom, if_pos h]

/-- Past cell 32767 there is nothing to fetch. -/
theorem State.window_of_ge {s : State} (h : memCells ≤ s.pc.toNat) : s.window = [] := by
  rw [State.window, maxLength, Memory.cellsFrom, if_neg (Nat.not_lt.2 h)]

end Sys2Proof.Machine
end

