-- ==== Sys2Proof/Laws/State.lean ====
section
/-! SUPPORT. One lemma per field per update of the state, true by rfl, so that no proof unfolds a record update; and what
registers read back (R21). -/

namespace Sys2Proof.Machine

variable (s : State)

/-! `State.setReg` -/

@[simp] theorem State.setReg_regs (i : Reg) (v : Number) : (s.setReg i v).regs = s.regs.set i v := rfl
@[simp] theorem State.setReg_pc (i : Reg) (v : Number) : (s.setReg i v).pc = s.pc := rfl
@[simp] theorem State.setReg_stack (i : Reg) (v : Number) : (s.setReg i v).stack = s.stack := rfl
@[simp] theorem State.setReg_halted (i : Reg) (v : Number) : (s.setReg i v).halted = s.halted := rfl
@[simp] theorem State.setReg_faultCause (i : Reg) (v : Number) : (s.setReg i v).faultCause = s.faultCause := rfl
@[simp] theorem State.setReg_faultPc (i : Reg) (v : Number) : (s.setReg i v).faultPc = s.faultPc := rfl
@[simp] theorem State.setReg_faultInfo (i : Reg) (v : Number) : (s.setReg i v).faultInfo = s.faultInfo := rfl
@[simp] theorem State.setReg_mem (i : Reg) (v : Number) : (s.setReg i v).mem = s.mem := rfl
@[simp] theorem State.setReg_outTrace (i : Reg) (v : Number) : (s.setReg i v).outTrace = s.outTrace := rfl
@[simp] theorem State.setReg_inPos (i : Reg) (v : Number) : (s.setReg i v).inPos = s.inPos := rfl
@[simp] theorem State.setReg_cfg (i : Reg) (v : Number) : (s.setReg i v).cfg = s.cfg := rfl
@[simp] theorem State.setReg_host (i : Reg) (v : Number) : (s.setReg i v).host = s.host := rfl

/-! `State.consume` -/

@[simp] theorem State.consume_regs (k : Nat) : (s.consume k).regs = s.regs := rfl
@[simp] theorem State.consume_pc (k : Nat) : (s.consume k).pc = s.pc + BitVec.ofNat 16 k := rfl
@[simp] theorem State.consume_stack (k : Nat) : (s.consume k).stack = s.stack := rfl
@[simp] theorem State.consume_halted (k : Nat) : (s.consume k).halted = s.halted := rfl
@[simp] theorem State.consume_faultCause (k : Nat) : (s.consume k).faultCause = s.faultCause := rfl
@[simp] theorem State.consume_faultPc (k : Nat) : (s.consume k).faultPc = s.faultPc := rfl
@[simp] theorem State.consume_faultInfo (k : Nat) : (s.consume k).faultInfo = s.faultInfo := rfl
@[simp] theorem State.consume_mem (k : Nat) : (s.consume k).mem = s.mem := rfl
@[simp] theorem State.consume_outTrace (k : Nat) : (s.consume k).outTrace = s.outTrace := rfl
@[simp] theorem State.consume_inPos (k : Nat) : (s.consume k).inPos = s.inPos := rfl
@[simp] theorem State.consume_cfg (k : Nat) : (s.consume k).cfg = s.cfg := rfl
@[simp] theorem State.consume_host (k : Nat) : (s.consume k).host = s.host := rfl

/-! `State.jump` -/

@[simp] theorem State.jump_regs (t : Number) : (s.jump t).regs = s.regs := rfl
@[simp] theorem State.jump_pc (t : Number) : (s.jump t).pc = numCell t := rfl
@[simp] theorem State.jump_stack (t : Number) : (s.jump t).stack = s.stack := rfl
@[simp] theorem State.jump_halted (t : Number) : (s.jump t).halted = s.halted := rfl
@[simp] theorem State.jump_faultCause (t : Number) : (s.jump t).faultCause = s.faultCause := rfl
@[simp] theorem State.jump_faultPc (t : Number) : (s.jump t).faultPc = s.faultPc := rfl
@[simp] theorem State.jump_faultInfo (t : Number) : (s.jump t).faultInfo = s.faultInfo := rfl
@[simp] theorem State.jump_mem (t : Number) : (s.jump t).mem = s.mem := rfl
@[simp] theorem State.jump_outTrace (t : Number) : (s.jump t).outTrace = s.outTrace := rfl
@[simp] theorem State.jump_inPos (t : Number) : (s.jump t).inPos = s.inPos := rfl
@[simp] theorem State.jump_cfg (t : Number) : (s.jump t).cfg = s.cfg := rfl
@[simp] theorem State.jump_host (t : Number) : (s.jump t).host = s.host := rfl

/-! `State.pushed` -/

@[simp] theorem State.pushed_regs (v : Number) : (s.pushed v).regs = s.regs := rfl
@[simp] theorem State.pushed_pc (v : Number) : (s.pushed v).pc = s.pc := rfl
@[simp] theorem State.pushed_stack (v : Number) : (s.pushed v).stack = s.stack ++ [v] := rfl
@[simp] theorem State.pushed_halted (v : Number) : (s.pushed v).halted = s.halted := rfl
@[simp] theorem State.pushed_faultCause (v : Number) : (s.pushed v).faultCause = s.faultCause := rfl
@[simp] theorem State.pushed_faultPc (v : Number) : (s.pushed v).faultPc = s.faultPc := rfl
@[simp] theorem State.pushed_faultInfo (v : Number) : (s.pushed v).faultInfo = s.faultInfo := rfl
@[simp] theorem State.pushed_mem (v : Number) : (s.pushed v).mem = s.mem := rfl
@[simp] theorem State.pushed_outTrace (v : Number) : (s.pushed v).outTrace = s.outTrace := rfl
@[simp] theorem State.pushed_inPos (v : Number) : (s.pushed v).inPos = s.inPos := rfl
@[simp] theorem State.pushed_cfg (v : Number) : (s.pushed v).cfg = s.cfg := rfl
@[simp] theorem State.pushed_host (v : Number) : (s.pushed v).host = s.host := rfl

/-! `State.popped` -/

@[simp] theorem State.popped_regs : (s.popped).regs = s.regs := rfl
@[simp] theorem State.popped_pc : (s.popped).pc = s.pc := rfl
@[simp] theorem State.popped_stack : (s.popped).stack = s.stack.dropLast := rfl
@[simp] theorem State.popped_halted : (s.popped).halted = s.halted := rfl
@[simp] theorem State.popped_faultCause : (s.popped).faultCause = s.faultCause := rfl
@[simp] theorem State.popped_faultPc : (s.popped).faultPc = s.faultPc := rfl
@[simp] theorem State.popped_faultInfo : (s.popped).faultInfo = s.faultInfo := rfl
@[simp] theorem State.popped_mem : (s.popped).mem = s.mem := rfl
@[simp] theorem State.popped_outTrace : (s.popped).outTrace = s.outTrace := rfl
@[simp] theorem State.popped_inPos : (s.popped).inPos = s.inPos := rfl
@[simp] theorem State.popped_cfg : (s.popped).cfg = s.cfg := rfl
@[simp] theorem State.popped_host : (s.popped).host = s.host := rfl

/-! `State.stop` -/

@[simp] theorem State.stop_regs : (s.stop).regs = s.regs := rfl
@[simp] theorem State.stop_pc : (s.stop).pc = s.pc := rfl
@[simp] theorem State.stop_stack : (s.stop).stack = s.stack := rfl
@[simp] theorem State.stop_halted : (s.stop).halted = true := rfl
@[simp] theorem State.stop_faultCause : (s.stop).faultCause = s.faultCause := rfl
@[simp] theorem State.stop_faultPc : (s.stop).faultPc = s.faultPc := rfl
@[simp] theorem State.stop_faultInfo : (s.stop).faultInfo = s.faultInfo := rfl
@[simp] theorem State.stop_mem : (s.stop).mem = s.mem := rfl
@[simp] theorem State.stop_outTrace : (s.stop).outTrace = s.outTrace := rfl
@[simp] theorem State.stop_inPos : (s.stop).inPos = s.inPos := rfl
@[simp] theorem State.stop_cfg : (s.stop).cfg = s.cfg := rfl
@[simp] theorem State.stop_host : (s.stop).host = s.host := rfl

/-! `State.raise` -/

@[simp] theorem State.raise_regs (ipc : Pc) (c : Cause) (x : Cell) : (s.raise ipc c x).regs = s.regs := rfl
@[simp] theorem State.raise_pc (ipc : Pc) (c : Cause) (x : Cell) : (s.raise ipc c x).pc = s.pc := rfl
@[simp] theorem State.raise_stack (ipc : Pc) (c : Cause) (x : Cell) : (s.raise ipc c x).stack = s.stack := rfl
@[simp] theorem State.raise_halted (ipc : Pc) (c : Cause) (x : Cell) : (s.raise ipc c x).halted = true := rfl
@[simp] theorem State.raise_faultCause (ipc : Pc) (c : Cause) (x : Cell) : (s.raise ipc c x).faultCause = c.code := rfl
@[simp] theorem State.raise_faultPc (ipc : Pc) (c : Cause) (x : Cell) : (s.raise ipc c x).faultPc = ipc := rfl
@[simp] theorem State.raise_faultInfo (ipc : Pc) (c : Cause) (x : Cell) : (s.raise ipc c x).faultInfo = x := rfl
@[simp] theorem State.raise_mem (ipc : Pc) (c : Cause) (x : Cell) : (s.raise ipc c x).mem = s.mem := rfl
@[simp] theorem State.raise_outTrace (ipc : Pc) (c : Cause) (x : Cell) : (s.raise ipc c x).outTrace = s.outTrace := rfl
@[simp] theorem State.raise_inPos (ipc : Pc) (c : Cause) (x : Cell) : (s.raise ipc c x).inPos = s.inPos := rfl
@[simp] theorem State.raise_cfg (ipc : Pc) (c : Cause) (x : Cell) : (s.raise ipc c x).cfg = s.cfg := rfl
@[simp] theorem State.raise_host (ipc : Pc) (c : Cause) (x : Cell) : (s.raise ipc c x).host = s.host := rfl

/-! `State.emitted` -/

@[simp] theorem State.emitted_regs (v : Number) : (s.emitted v).regs = s.regs := rfl
@[simp] theorem State.emitted_pc (v : Number) : (s.emitted v).pc = s.pc := rfl
@[simp] theorem State.emitted_stack (v : Number) : (s.emitted v).stack = s.stack := rfl
@[simp] theorem State.emitted_halted (v : Number) : (s.emitted v).halted = s.halted := rfl
@[simp] theorem State.emitted_faultCause (v : Number) : (s.emitted v).faultCause = s.faultCause := rfl
@[simp] theorem State.emitted_faultPc (v : Number) : (s.emitted v).faultPc = s.faultPc := rfl
@[simp] theorem State.emitted_faultInfo (v : Number) : (s.emitted v).faultInfo = s.faultInfo := rfl
@[simp] theorem State.emitted_mem (v : Number) : (s.emitted v).mem = s.mem := rfl
@[simp] theorem State.emitted_outTrace (v : Number) : (s.emitted v).outTrace = s.outTrace ++ [v] := rfl
@[simp] theorem State.emitted_inPos (v : Number) : (s.emitted v).inPos = s.inPos := rfl
@[simp] theorem State.emitted_cfg (v : Number) : (s.emitted v).cfg = s.cfg := rfl
@[simp] theorem State.emitted_host (v : Number) : (s.emitted v).host = s.host := rfl

/-! `State.inputTaken` -/

@[simp] theorem State.inputTaken_regs : (s.inputTaken).regs = s.regs := rfl
@[simp] theorem State.inputTaken_pc : (s.inputTaken).pc = s.pc := rfl
@[simp] theorem State.inputTaken_stack : (s.inputTaken).stack = s.stack := rfl
@[simp] theorem State.inputTaken_halted : (s.inputTaken).halted = s.halted := rfl
@[simp] theorem State.inputTaken_faultCause : (s.inputTaken).faultCause = s.faultCause := rfl
@[simp] theorem State.inputTaken_faultPc : (s.inputTaken).faultPc = s.faultPc := rfl
@[simp] theorem State.inputTaken_faultInfo : (s.inputTaken).faultInfo = s.faultInfo := rfl
@[simp] theorem State.inputTaken_mem : (s.inputTaken).mem = s.mem := rfl
@[simp] theorem State.inputTaken_outTrace : (s.inputTaken).outTrace = s.outTrace := rfl
@[simp] theorem State.inputTaken_inPos : (s.inputTaken).inPos = s.inPos + 1 := rfl
@[simp] theorem State.inputTaken_cfg : (s.inputTaken).cfg = s.cfg := rfl
@[simp] theorem State.inputTaken_host : (s.inputTaken).host = s.host := rfl

/-! `State.stored` -/

@[simp] theorem State.stored_regs (a : Nat) (v : Number) : (s.stored a v).regs = s.regs := rfl
@[simp] theorem State.stored_pc (a : Nat) (v : Number) : (s.stored a v).pc = s.pc := rfl
@[simp] theorem State.stored_stack (a : Nat) (v : Number) : (s.stored a v).stack = s.stack := rfl
@[simp] theorem State.stored_halted (a : Nat) (v : Number) : (s.stored a v).halted = s.halted := rfl
@[simp] theorem State.stored_faultCause (a : Nat) (v : Number) : (s.stored a v).faultCause = s.faultCause := rfl
@[simp] theorem State.stored_faultPc (a : Nat) (v : Number) : (s.stored a v).faultPc = s.faultPc := rfl
@[simp] theorem State.stored_faultInfo (a : Nat) (v : Number) : (s.stored a v).faultInfo = s.faultInfo := rfl
@[simp] theorem State.stored_mem (a : Nat) (v : Number) : (s.stored a v).mem = s.mem.write a (numCell v) := rfl
@[simp] theorem State.stored_outTrace (a : Nat) (v : Number) : (s.stored a v).outTrace = s.outTrace := rfl
@[simp] theorem State.stored_inPos (a : Nat) (v : Number) : (s.stored a v).inPos = s.inPos := rfl
@[simp] theorem State.stored_cfg (a : Nat) (v : Number) : (s.stored a v).cfg = s.cfg := rfl
@[simp] theorem State.stored_host (a : Nat) (v : Number) : (s.stored a v).host = s.host := rfl

/-! `State.boot` -/

@[simp] theorem State.boot_regs (cfg : Config) (host : HostScript) (m : Memory) : (State.boot cfg host m).regs = Vector.replicate 8 0#15 := rfl
@[simp] theorem State.boot_pc (cfg : Config) (host : HostScript) (m : Memory) : (State.boot cfg host m).pc = 0#16 := rfl
@[simp] theorem State.boot_stack (cfg : Config) (host : HostScript) (m : Memory) : (State.boot cfg host m).stack = [] := rfl
@[simp] theorem State.boot_halted (cfg : Config) (host : HostScript) (m : Memory) : (State.boot cfg host m).halted = false := rfl
@[simp] theorem State.boot_faultCause (cfg : Config) (host : HostScript) (m : Memory) : (State.boot cfg host m).faultCause = 0#8 := rfl
@[simp] theorem State.boot_faultPc (cfg : Config) (host : HostScript) (m : Memory) : (State.boot cfg host m).faultPc = 0#16 := rfl
@[simp] theorem State.boot_faultInfo (cfg : Config) (host : HostScript) (m : Memory) : (State.boot cfg host m).faultInfo = 0#16 := rfl
@[simp] theorem State.boot_mem (cfg : Config) (host : HostScript) (m : Memory) : (State.boot cfg host m).mem = m := rfl
@[simp] theorem State.boot_outTrace (cfg : Config) (host : HostScript) (m : Memory) : (State.boot cfg host m).outTrace = [] := rfl
@[simp] theorem State.boot_inPos (cfg : Config) (host : HostScript) (m : Memory) : (State.boot cfg host m).inPos = 0 := rfl
@[simp] theorem State.boot_cfg (cfg : Config) (host : HostScript) (m : Memory) : (State.boot cfg host m).cfg = cfg := rfl
@[simp] theorem State.boot_host (cfg : Config) (host : HostScript) (m : Memory) : (State.boot cfg host m).host = host := rfl

/-! Registers -/

theorem State.reg_eq (i : Reg) : s.reg i = s.regs[i] := rfl

/-- A register reads what was last written to it, and a write changes no other register (R21, R22). -/
theorem State.reg_setReg (i j : Reg) (v : Number) :
    (s.setReg i v).reg j = if i = j then v else s.reg j := by
  simp [State.reg, Vector.getElem_set, Fin.ext_iff]

@[simp] theorem State.reg_boot (cfg : Config) (host : HostScript) (m : Memory) (i : Reg) :
    (State.boot cfg host m).reg i = 0#15 := by
  simp [State.reg]

/-- A read of the register file sees nothing but the register file. -/
theorem State.reg_congr {s t : State} (h : t.regs = s.regs) (i : Reg) : t.reg i = s.reg i := by
  simp [State.reg, h]

@[simp] theorem State.consume_reg (k : Nat) (i : Reg) : (s.consume k).reg i = s.reg i := rfl
@[simp] theorem State.jump_reg (t : Number) (i : Reg) : (s.jump t).reg i = s.reg i := rfl
@[simp] theorem State.pushed_reg (v : Number) (i : Reg) : (s.pushed v).reg i = s.reg i := rfl
@[simp] theorem State.popped_reg (i : Reg) : (s.popped).reg i = s.reg i := rfl
@[simp] theorem State.stop_reg (i : Reg) : (s.stop).reg i = s.reg i := rfl
@[simp] theorem State.raise_reg (ipc : Pc) (c : Cause) (x : Cell) (i : Reg) : (s.raise ipc c x).reg i = s.reg i := rfl
@[simp] theorem State.emitted_reg (v : Number) (i : Reg) : (s.emitted v).reg i = s.reg i := rfl
@[simp] theorem State.inputTaken_reg (i : Reg) : (s.inputTaken).reg i = s.reg i := rfl
@[simp] theorem State.stored_reg (a : Nat) (v : Number) (i : Reg) : (s.stored a v).reg i = s.reg i := rfl

end Sys2Proof.Machine
end

