-- ==== Sys2Proof/Laws/Operands.lean ====
section
/-! SUPPORT. What reading source operands does (R85), and the two shared register-writing shapes. -/

namespace Sys2Proof.Machine

variable {s : State}

@[simp] theorem State.value_number (n : Number) : s.value (.number n) = some n := rfl
@[simp] theorem State.value_register (i : Reg) : s.value (.register i) = some (s.reg i) := rfl
@[simp] theorem State.value_invalid (x : Cell) : s.value (.invalid x) = none := rfl

/-- A source operand is readable exactly when it is well formed. -/
theorem State.value_isSome_iff_wf (x : Operand) : (s.value x).isSome = x.wf := by
  cases x <;> rfl

theorem State.exists_value_of_wf {x : Operand} (h : x.wf = true) : ∃ v, s.value x = some v := by
  rw [← State.value_isSome_iff_wf (s := s)] at h
  exact Option.isSome_iff_exists.1 h

/-- An operand's value depends on the registers only. -/
theorem State.value_congr {t : State} (h : t.regs = s.regs) (x : Operand) : t.value x = s.value x := by
  cases x <;> simp [State.reg, h]

@[simp] theorem State.value_consume (k : Nat) (x : Operand) : (s.consume k).value x = s.value x :=
  State.value_congr rfl x

/-- All `withValue` can do: go on with the value, or raise InvalidOperand. -/
theorem State.withValue_eq (ipc : Pc) (x : Operand) (k : Number → State) :
    s.withValue ipc x k =
      match s.value x with
      | some v => k v
      | none => s.raise ipc .invalidOperand x.cell := rfl

theorem State.withValue_of_value {x : Operand} {v : Number} (h : s.value x = some v) (ipc : Pc)
    (k : Number → State) : s.withValue ipc x k = k v := by
  simp [State.withValue, h]

theorem State.withValue_cases (ipc : Pc) (x : Operand) (k : Number → State) :
    (∃ v, s.value x = some v ∧ s.withValue ipc x k = k v) ∨
    (s.value x = none ∧ s.withValue ipc x k = s.raise ipc .invalidOperand x.cell) := by
  cases h : s.value x with
  | none => exact .inr ⟨rfl, by simp [State.withValue, h]⟩
  | some v => exact .inl ⟨v, rfl, State.withValue_of_value h ipc k⟩

/-- The shape of `FDS` results: one register and the pc. -/
theorem State.unary_of_value {b : Operand} {v : Number} (h : s.value b = some v) (f : Number → Number) (d : Reg) :
    s.unary f d b = (s.consume 3).setReg d (f v) :=
  State.withValue_of_value (by simpa using h) _ _

/-- The shape of `FDSS` results: one register and the pc. -/
theorem State.binary_of_values {b c : Operand} {v w : Number} (hb : s.value b = some v) (hc : s.value c = some w)
    (f : Number → Number → Number) (d : Reg) : s.binary f d b c = (s.consume 4).setReg d (f v w) := by
  unfold State.binary
  rw [State.withValue_of_value (by simpa using hb), State.withValue_of_value (by simpa using hc)]

theorem State.unary_cases (f : Number → Number) (d : Reg) (b : Operand) :
    (∃ v, s.value b = some v ∧ s.unary f d b = (s.consume 3).setReg d (f v)) ∨
    (∃ x, s.unary f d b = (s.consume 3).raise s.pc .invalidOperand x) := by
  rcases State.withValue_cases (s := s.consume 3) s.pc b (fun v => (s.consume 3).setReg d (f v)) with
    ⟨v, hv, h⟩ | ⟨_, h⟩
  · exact .inl ⟨v, by simpa using hv, h⟩
  · exact .inr ⟨_, h⟩

theorem State.binary_cases (f : Number → Number → Number) (d : Reg) (b c : Operand) :
    (∃ v w, s.value b = some v ∧ s.value c = some w ∧ s.binary f d b c = (s.consume 4).setReg d (f v w)) ∨
    (∃ x, s.binary f d b c = (s.consume 4).raise s.pc .invalidOperand x) := by
  unfold State.binary
  rcases State.withValue_cases (s := s.consume 4) s.pc b
      (fun v => (s.consume 4).withValue s.pc c fun w => (s.consume 4).setReg d (f v w)) with ⟨v, hv, h⟩ | ⟨_, h⟩
  · rw [h]
    rcases State.withValue_cases (s := s.consume 4) s.pc c (fun w => (s.consume 4).setReg d (f v w)) with
      ⟨w, hw, h'⟩ | ⟨_, h'⟩
    · exact .inl ⟨v, w, by simpa using hv, by simpa using hw, h'⟩
    · exact .inr ⟨_, h'⟩
  · exact .inr ⟨_, h⟩

/-! The stack's top (R28) and fullness (R29). -/

theorem State.top_eq_none_iff : s.top = none ↔ s.stack = [] := by
  simp [State.top]

theorem State.top_of_append {st : List Number} {r : Number} (h : s.stack = st ++ [r]) : s.top = some r := by
  simp [State.top, h]

/-- A popped value stood on top of what is left. -/
theorem State.stack_of_top {r : Number} (h : s.top = some r) : s.stack = s.popped.stack ++ [r] := by
  have hne : s.stack ≠ [] := fun e => by simp [State.top, e] at h
  rw [State.top, List.getLast?_eq_some_getLast hne] at h
  obtain rfl : s.stack.getLast hne = r := by simpa using h
  exact (List.dropLast_concat_getLast hne).symm

theorem State.stackFull_iff : s.stackFull = true ↔ s.cfg.stackDepth = some s.stack.length := by
  unfold State.stackFull
  cases h : s.cfg.stackDepth with
  | none => simp
  | some n => rw [beq_iff_eq, Option.some.injEq]; exact eq_comm

end Sys2Proof.Machine
end

