-- ==== Sys2Proof/Laws/Exec.lean ====
section
/-! SUPPORT. Inversion of the meanings and of a step: what each can do, said once; the proofs about all instructions cite
`exec_cases`, `inAnswer_cases` and `step_cases` instead of unfolding the machine. -/

namespace Sys2Proof.Machine

/-- Every instruction answers a next state. -/
theorem exec_next (i : Instr) (s : State) : ∃ t, exec i s = .next t := by
  cases i <;> exact ⟨_, rfl⟩

/-- What a running instruction can do to the state: raise a fault, or one of the effects of files 40 to 46. -/
inductive Effect (i : Instr) (s : State) : State → Prop where
  | raise (c : Cause) (x : Cell) (hc : c ≠ .loadError) (hd : c ≠ .dataAddressRange) :
      Effect i s ((s.consume i.length).raise s.pc c x)
  | halt (h : i = .halt ∨ i = .ret ∧ s.stack = []) : Effect i s (s.consume i.length).stop
  | advance : Effect i s (s.consume i.length)
  | jump (t : Number) : Effect i s ((s.consume i.length).jump t)
  | register (d : Reg) (v : Number) (h : i.dest? = some d) : Effect i s ((s.consume i.length).setReg d v)
  | push (v : Number) (h : ∃ a, i = .push a) (hf : s.stackFull = false) : Effect i s ((s.consume i.length).pushed v)
  | pop (d : Reg) (v : Number) (h : i = .pop d) (hs : s.top = some v) :
      Effect i s ((s.consume i.length).popped.setReg d v)
  | call (v t : Number) (h : ∃ a, i = .call a) (hf : s.stackFull = false) :
      Effect i s (((s.consume i.length).pushed v).jump t)
  | ret (v : Number) (h : i = .ret) (hs : s.top = some v) : Effect i s ((s.consume i.length).popped.jump v)
  | store (a b : Operand) (ea v : Number) (h : i = .wmem a b) (ha : s.value a = some ea) (hb : s.value b = some v) :
      Effect i s ((s.consume i.length).stored ea.toNat v)
  | emit (a : Operand) (v : Number) (h : i = .out a) (ha : s.value a = some v) :
      Effect i s ((s.consume i.length).emitted v)
  | input (d : Reg) (v : Number) (h : i = .inp d) (hv : s.inAnswer = some (.value v)) :
      Effect i s ((s.consume i.length).inputTaken.setReg d v)
  | hold (h : ∃ d, i = .inp d) (hv : s.inAnswer = none) : Effect i s s

theorem withValue_effect {i : Instr} {s t : State} {x : Operand} {k : Number → State} {n : Nat} (hn : n = i.length)
    (ht : (s.consume n).withValue s.pc x k = t) (hk : ∀ v, s.value x = some v → Effect i s (k v)) :
    Effect i s t := by
  subst hn ht
  rcases State.withValue_cases (s := s.consume i.length) s.pc x k with ⟨v, hv, h⟩ | ⟨_, h⟩
  · rw [h]
    exact hk v (by simpa using hv)
  · rw [h]
    exact .raise _ _ (by decide) (by decide)

/-- All an instruction can do, said once. -/
theorem exec_cases {i : Instr} {s t : State} (h : exec i s = .next t) : Effect i s t := by
  have unary : ∀ (f : Number → Number) (d : Reg) (b : Operand), i.length = 3 → i.dest? = some d →
      s.unary f d b = t → Effect i s t := fun f d b hl hd ht =>
    withValue_effect hl.symm ht fun v _ => hl ▸ Effect.register d (f v) hd
  have binary : ∀ (f : Number → Number → Number) (d : Reg) (b c : Operand), i.length = 4 → i.dest? = some d →
      s.binary f d b c = t → Effect i s t := fun f d b c hl hd ht =>
    withValue_effect hl.symm ht fun v _ =>
      withValue_effect hl.symm rfl fun w _ => hl ▸ Effect.register d (f v w) hd
  cases i with
  | halt => cases h; exact .halt (.inl rfl)
  | noop => cases h; exact .advance
  | set d b => exact unary id d b rfl rfl (by injection h)
  | not d b => exact unary aluNot d b rfl rfl (by injection h)
  | eq d b c => exact binary _ d b c rfl rfl (by injection h)
  | gt d b c => exact binary _ d b c rfl rfl (by injection h)
  | add d b c => exact binary _ d b c rfl rfl (by injection h)
  | mult d b c => exact binary _ d b c rfl rfl (by injection h)
  | and d b c => exact binary _ d b c rfl rfl (by injection h)
  | or d b c => exact binary _ d b c rfl rfl (by injection h)
  | mod d b c =>
    injection h with h
    refine withValue_effect rfl h fun n _ => withValue_effect rfl rfl fun m _ => ?_
    split
    · exact .raise _ _ (by decide) (by decide)
    · exact .register d _ rfl
  | push a =>
    injection h with h
    refine withValue_effect rfl h fun v _ => ?_
    split
    · exact .raise _ _ (by decide) (by decide)
    · exact .push v ⟨a, rfl⟩ (by simp_all)
  | pop d =>
    injection h with h
    subst h
    split
    · exact .raise _ _ (by decide) (by decide)
    · exact .pop d _ rfl ‹_›
  | jmp a =>
    injection h with h
    exact withValue_effect rfl h fun v _ => .jump v
  | jt a b =>
    injection h with h
    refine withValue_effect rfl h fun v _ => ?_
    split
    · exact withValue_effect rfl rfl fun w _ => .jump w
    · exact .advance
  | jf a b =>
    injection h with h
    refine withValue_effect rfl h fun v _ => ?_
    split
    · exact .advance
    · exact withValue_effect rfl rfl fun w _ => .jump w
  | call a =>
    injection h with h
    refine withValue_effect rfl h fun v _ => ?_
    split
    · exact .raise _ _ (by decide) (by decide)
    · split
      · exact .raise _ _ (by decide) (by decide)
      · exact .call _ v ⟨a, rfl⟩ (by simp_all)
  | ret =>
    injection h with h
    subst h
    split
    · exact .halt (.inr ⟨rfl, State.top_eq_none_iff.1 ‹_›⟩)
    · exact .ret _ rfl ‹_›
  | rmem d b =>
    injection h with h
    refine withValue_effect rfl h fun ea _ => ?_
    rw [if_neg (show ¬ memCells ≤ ea.toNat from Nat.not_le.2 ea.isLt)]
    split
    · exact .raise _ _ (by decide) (by decide)
    · exact .register d _ rfl
  | wmem a b =>
    injection h with h
    refine withValue_effect rfl h fun ea ha => withValue_effect rfl rfl fun v hv => ?_
    rw [if_neg (show ¬ memCells ≤ ea.toNat from Nat.not_le.2 ea.isLt)]
    exact .store a b ea v rfl ha hv
  | out a =>
    injection h with h
    refine withValue_effect rfl h fun v hv => ?_
    split
    · exact .emit a v rfl hv
    · exact .raise _ _ (by decide) (by decide)
  | inp d =>
    injection h with h
    subst h
    split
    · exact .hold ⟨d, rfl⟩ ‹_›
    · exact .input d _ rfl ‹_›
    · exact .raise _ _ (by decide) (by decide)
    · exact .raise _ _ (by decide) (by decide)

/-- All a step can do: it is enabled only when running, and then it takes a decode fault or executes. -/
theorem step_cases {s t : State} (h : step s = .next t) :
    s.halted = false ∧
      ((∃ r, decode s.window = .error r ∧ t = s.decodeFault r) ∨
       (∃ i, decode s.window = .ok i ∧ exec i s = .next t)) := by
  unfold step at h
  split at h
  · cases h
  · refine ⟨by simp_all, ?_⟩
    split at h
    · exact .inr ⟨_, ‹_›, h⟩
    · injection h with h
      exact .inl ⟨_, ‹_›, h.symm⟩

theorem step_of_decode {s : State} {i : Instr} (hh : s.halted = false) (hd : decode s.window = .ok i) :
    step s = exec i s := by
  simp [step, hh, hd]

theorem step_of_reject {s : State} {r : Reject} (hh : s.halted = false) (hd : decode s.window = .error r) :
    step s = .next (s.decodeFault r) := by
  simp [step, hh, hd]

/-- All the input port can answer (R43). -/
theorem inAnswer_value {s : State} {v : Number} (h : s.inAnswer = some (.value v)) :
    s.host.input[s.inPos]? = some v ∧ v.toNat ≤ s.cfg.inMax.toNat := by
  unfold State.inAnswer at h
  split at h
  · split at h
    · simp_all
    · cases h
  · split at h
    · cases h
    · cases h
    · split at h <;> cases h

end Sys2Proof.Machine
end

