-- ==== Sys2Proof/Laws/PerInstr.lean ====
section
/-! SUPPORT. Facts about every instruction, one lemma per constructor. -/

namespace Sys2Proof.Laws

/-- The encoding has as many cells as the instruction's length, 1 to 4 (R80, R94), and begins with an opcode of
0 .. 21 (R81). -/
def EncodedLength.Statement (i : Instr) : Prop :=
  (encode i).length = i.length ∧ 1 ≤ i.length ∧ i.length ≤ maxLength ∧
    ∃ op, (encode i).head? = some op ∧ op.toNat ≤ 21

theorem EncodedLength.halt : EncodedLength.Statement .halt :=
  ⟨rfl, Nat.le_add_right 1 _, by simp [Instr.length, Instr.kinds, maxLength], _, rfl, by decide⟩

theorem EncodedLength.set (d : Reg) (b : Operand) : EncodedLength.Statement (.set d b) :=
  ⟨rfl, Nat.le_add_right 1 _, by simp [Instr.length, Instr.kinds, maxLength], _, rfl, by decide⟩

theorem EncodedLength.push (a : Operand) : EncodedLength.Statement (.push a) :=
  ⟨rfl, Nat.le_add_right 1 _, by simp [Instr.length, Instr.kinds, maxLength], _, rfl, by decide⟩

theorem EncodedLength.pop (d : Reg) : EncodedLength.Statement (.pop d) :=
  ⟨rfl, Nat.le_add_right 1 _, by simp [Instr.length, Instr.kinds, maxLength], _, rfl, by decide⟩

theorem EncodedLength.eq (d : Reg) (b c : Operand) : EncodedLength.Statement (.eq d b c) :=
  ⟨rfl, Nat.le_add_right 1 _, by simp [Instr.length, Instr.kinds, maxLength], _, rfl, by decide⟩

theorem EncodedLength.gt (d : Reg) (b c : Operand) : EncodedLength.Statement (.gt d b c) :=
  ⟨rfl, Nat.le_add_right 1 _, by simp [Instr.length, Instr.kinds, maxLength], _, rfl, by decide⟩

theorem EncodedLength.jmp (a : Operand) : EncodedLength.Statement (.jmp a) :=
  ⟨rfl, Nat.le_add_right 1 _, by simp [Instr.length, Instr.kinds, maxLength], _, rfl, by decide⟩

theorem EncodedLength.jt (a b : Operand) : EncodedLength.Statement (.jt a b) :=
  ⟨rfl, Nat.le_add_right 1 _, by simp [Instr.length, Instr.kinds, maxLength], _, rfl, by decide⟩

theorem EncodedLength.jf (a b : Operand) : EncodedLength.Statement (.jf a b) :=
  ⟨rfl, Nat.le_add_right 1 _, by simp [Instr.length, Instr.kinds, maxLength], _, rfl, by decide⟩

theorem EncodedLength.add (d : Reg) (b c : Operand) : EncodedLength.Statement (.add d b c) :=
  ⟨rfl, Nat.le_add_right 1 _, by simp [Instr.length, Instr.kinds, maxLength], _, rfl, by decide⟩

theorem EncodedLength.mult (d : Reg) (b c : Operand) : EncodedLength.Statement (.mult d b c) :=
  ⟨rfl, Nat.le_add_right 1 _, by simp [Instr.length, Instr.kinds, maxLength], _, rfl, by decide⟩

theorem EncodedLength.mod (d : Reg) (b c : Operand) : EncodedLength.Statement (.mod d b c) :=
  ⟨rfl, Nat.le_add_right 1 _, by simp [Instr.length, Instr.kinds, maxLength], _, rfl, by decide⟩

theorem EncodedLength.and (d : Reg) (b c : Operand) : EncodedLength.Statement (.and d b c) :=
  ⟨rfl, Nat.le_add_right 1 _, by simp [Instr.length, Instr.kinds, maxLength], _, rfl, by decide⟩

theorem EncodedLength.or (d : Reg) (b c : Operand) : EncodedLength.Statement (.or d b c) :=
  ⟨rfl, Nat.le_add_right 1 _, by simp [Instr.length, Instr.kinds, maxLength], _, rfl, by decide⟩

theorem EncodedLength.not (d : Reg) (b : Operand) : EncodedLength.Statement (.not d b) :=
  ⟨rfl, Nat.le_add_right 1 _, by simp [Instr.length, Instr.kinds, maxLength], _, rfl, by decide⟩

theorem EncodedLength.rmem (d : Reg) (b : Operand) : EncodedLength.Statement (.rmem d b) :=
  ⟨rfl, Nat.le_add_right 1 _, by simp [Instr.length, Instr.kinds, maxLength], _, rfl, by decide⟩

theorem EncodedLength.wmem (a b : Operand) : EncodedLength.Statement (.wmem a b) :=
  ⟨rfl, Nat.le_add_right 1 _, by simp [Instr.length, Instr.kinds, maxLength], _, rfl, by decide⟩

theorem EncodedLength.call (a : Operand) : EncodedLength.Statement (.call a) :=
  ⟨rfl, Nat.le_add_right 1 _, by simp [Instr.length, Instr.kinds, maxLength], _, rfl, by decide⟩

theorem EncodedLength.ret : EncodedLength.Statement .ret :=
  ⟨rfl, Nat.le_add_right 1 _, by simp [Instr.length, Instr.kinds, maxLength], _, rfl, by decide⟩

theorem EncodedLength.out (a : Operand) : EncodedLength.Statement (.out a) :=
  ⟨rfl, Nat.le_add_right 1 _, by simp [Instr.length, Instr.kinds, maxLength], _, rfl, by decide⟩

theorem EncodedLength.inp (d : Reg) : EncodedLength.Statement (.inp d) :=
  ⟨rfl, Nat.le_add_right 1 _, by simp [Instr.length, Instr.kinds, maxLength], _, rfl, by decide⟩

theorem EncodedLength.noop : EncodedLength.Statement .noop :=
  ⟨rfl, Nat.le_add_right 1 _, by simp [Instr.length, Instr.kinds, maxLength], _, rfl, by decide⟩

end Sys2Proof.Laws
end

