-- ==== Sys2Proof/Laws/Sequence.lean ====
section
/-! SUPPORT. What one fetch of the sequence does (R84, R87, R88), in the terms of the decoder's window: one lemma per
operation of Sequence.lean. -/

namespace Sys2Proof.Machine

theorem State.consume_consume (s : State) (j k : Nat) : (s.consume j).consume k = s.consume (j + k) := by
  simp [State.consume, BitVec.add_assoc, BitVec.ofNat_add]

/-- Fetch number `k` of an instruction that begins in memory. -/
theorem fetch_eq {s : State} (h : s.pc.toNat < 32768) {k : Nat} (hk : k < 4) :
    fetch s.pc (s.consume k) =
      match s.window[k]? with
      | none => .error (s.decodeFault ⟨.outOfCells, k⟩)
      | some x => .ok (x, s.consume (k + 1)) := by
  have e : (s.consume k).pc.toNat = s.pc.toNat + k := by
    simp [State.consume]
    omega
  rw [State.window_getElem?, fetch, e, State.consume_consume]
  simp only [State.consume_mem]
  unfold memCells
  by_cases hc : s.pc.toNat + k < 32768
  · rw [if_neg (by omega), if_pos ⟨hk, hc⟩]
  · rw [if_pos (by omega), if_neg (by omega)]
    rfl

theorem fetchS_eq {s : State} (h : s.pc.toNat < 32768) {k : Nat} (hk : k < 4) :
    fetchS s.pc (s.consume k) =
      match srcAt s.window k with
      | .error r => .error (s.decodeFault r)
      | .ok o => .ok (o, s.consume (k + 1)) := by
  unfold fetchS srcAt
  rw [fetch_eq h hk]
  cases s.window[k]? with
  | none => rfl
  | some x =>
    dsimp only
    unfold classify invalidBase regBase
    by_cases h1 : x.toNat < 32768
    · rw [if_neg (by omega)]
      simp [h1]
    · by_cases h2 : x.toNat < 32776
      · rw [if_neg (by omega)]
        simp [h1, h2]
      · rw [if_pos (by omega)]
        simp [h1, h2]
        rfl

theorem fetchD_eq {s : State} (h : s.pc.toNat < 32768) {k : Nat} (hk : k < 4) :
    fetchD s.pc (s.consume k) =
      match dstAt s.window k with
      | .error r => .error (s.decodeFault r)
      | .ok d => .ok (d, s.consume (k + 1)) := by
  unfold fetchD dstAt
  rw [fetch_eq h hk]
  cases s.window[k]? with
  | none => rfl
  | some x =>
    dsimp only
    unfold classify invalidBase regBase
    by_cases h1 : x.toNat < 32768
    · rw [if_neg (by omega)]
      simp [h1]
      rfl
    · by_cases h2 : x.toNat < 32776
      · rw [if_pos (by omega)]
        simp [h1, h2]
      · rw [if_neg (by omega)]
        simp [h1, h2]
        rfl

end Sys2Proof.Machine
end

