-- ==== Sys2Proof/Tests/Slice0.lean ====
section
/-! SUPPORT. Tests on fixed values, and for every obligation that has hypotheses a state and operands that meet them. The
expected results are the spec's: the words are written from R80 to R83, the vectors named V, B or P are those of
spec/95_test_vectors.md. -/

namespace Sys2Proof.Tests

open Sys2Proof Sys2Proof.Machine

/-! ### Helpers -/

/-- The state a step or an instruction answers, if it answers one. -/
def after (o : Host.Outcome State Fault Refusal) : Option State :=
  match o with
  | .next t => some t
  | .fault _ => none
  | .refused _ => none

/-- Reset with these cells loaded from address 0. -/
def prog (cells : List Cell) : State := State.boot {} {} (Memory.ofImage cells)

/-- The reset state with these cells from `a` on, and the pc there. -/
def progAt (a : Nat) (cells : List Cell) : State :=
  { State.reset with pc := BitVec.ofNat 16 a, mem := Memory.writeCells [] a cells }

/-- What a step records of a fault: code, fault pc, information word and the pc. -/
def faultOf (s : State) : Option (BitVec 8 × Pc × Cell × Pc) :=
  (after (step s)).map fun t => (t.faultCause, t.faultPc, t.faultInfo, t.pc)

/-- The pc after a step and a register's value there. -/
def pcAndReg (s : State) (i : Reg) : Option (Pc × Number) := (after (step s)).map fun t => (t.pc, t.reg i)

/-- The pc after a step, and whether the machine has halted. -/
def pcAndHalt (s : State) : Option (Pc × Bool) := (after (step s)).map fun t => (t.pc, t.halted)

/-! ### WellFormed: the check refuses an invalid operand in every source position -/

theorem test_wf_set : (Instr.set 0 (.invalid 32776#16)).wf = false := by decide
theorem test_wf_push : (Instr.push (.invalid 65535#16)).wf = false := by decide
theorem test_wf_eq_b : (Instr.eq 0 (.invalid 32776#16) (.number 0)).wf = false := by decide
theorem test_wf_eq_c : (Instr.eq 0 (.number 0) (.invalid 32776#16)).wf = false := by decide
theorem test_wf_gt : (Instr.gt 0 (.invalid 32776#16) (.number 0)).wf = false ∧
    (Instr.gt 0 (.number 0) (.invalid 32776#16)).wf = false := by decide
theorem test_wf_jmp : (Instr.jmp (.invalid 32776#16)).wf = false := by decide
theorem test_wf_jt : (Instr.jt (.invalid 32776#16) (.number 0)).wf = false ∧
    (Instr.jt (.number 0) (.invalid 40000#16)).wf = false := by decide
theorem test_wf_jf : (Instr.jf (.invalid 32776#16) (.number 0)).wf = false ∧
    (Instr.jf (.number 0) (.invalid 40000#16)).wf = false := by decide
theorem test_wf_add : (Instr.add 0 (.invalid 32776#16) (.number 0)).wf = false ∧
    (Instr.add 0 (.number 0) (.invalid 32776#16)).wf = false := by decide
theorem test_wf_mult : (Instr.mult 0 (.invalid 32776#16) (.number 0)).wf = false ∧
    (Instr.mult 0 (.number 0) (.invalid 32776#16)).wf = false := by decide
theorem test_wf_mod : (Instr.mod 0 (.invalid 32776#16) (.number 0)).wf = false ∧
    (Instr.mod 0 (.number 0) (.invalid 32776#16)).wf = false := by decide
theorem test_wf_and : (Instr.and 0 (.invalid 32776#16) (.number 0)).wf = false ∧
    (Instr.and 0 (.number 0) (.invalid 32776#16)).wf = false := by decide
theorem test_wf_or : (Instr.or 0 (.invalid 32776#16) (.number 0)).wf = false ∧
    (Instr.or 0 (.number 0) (.invalid 32776#16)).wf = false := by decide
theorem test_wf_not : (Instr.not 0 (.invalid 32776#16)).wf = false := by decide
theorem test_wf_rmem : (Instr.rmem 0 (.invalid 32776#16)).wf = false := by decide
theorem test_wf_wmem : (Instr.wmem (.invalid 32776#16) (.number 0)).wf = false ∧
    (Instr.wmem (.number 0) (.invalid 32776#16)).wf = false := by decide
theorem test_wf_call : (Instr.call (.invalid 32776#16)).wf = false := by decide
theorem test_wf_out : (Instr.out (.invalid 32776#16)).wf = false := by decide

/-! ### Decoding: every constructor from a word written out bit by bit (R82, R83) -/

theorem test_decode_halt : decode [0b0000000000000000#16] = .ok .halt := by decide
theorem test_decode_set :
    decode [0b0000000000000001#16, 0b1000000000000111#16, 0b1000000000000001#16] =
      .ok (.set 7 (.register 1)) := by decide
theorem test_decode_push : decode [0b0000000000000010#16, 0b0101010101010101#16] = .ok (.push (.number 21845#15)) := by
  decide
theorem test_decode_pop : decode [0b0000000000000011#16, 0b1000000000000011#16] = .ok (.pop 3) := by decide
theorem test_decode_eq :
    decode [0b0000000000000100#16, 0b1000000000000000#16, 0b1000000000000001#16, 0b0000000000000100#16] =
      .ok (.eq 0 (.register 1) (.number 4#15)) := by decide
theorem test_decode_gt :
    decode [0b0000000000000101#16, 0b1000000000000100#16, 0b1000000000000010#16, 0b1000000000000011#16] =
      .ok (.gt 4 (.register 2) (.register 3)) := by decide
theorem test_decode_jmp : decode [0b0000000000000110#16, 0b0000000000000101#16] = .ok (.jmp (.number 5#15)) := by decide
theorem test_decode_jt :
    decode [0b0000000000000111#16, 0b0000000000000001#16, 0b0000000000000101#16] =
      .ok (.jt (.number 1#15) (.number 5#15)) := by decide
theorem test_decode_jf :
    decode [0b0000000000001000#16, 0b1000000000000000#16, 0b0000000000001001#16] =
      .ok (.jf (.register 0) (.number 9#15)) := by decide
theorem test_decode_add :
    decode [0b0000000000001001#16, 0b1000000000000000#16, 0b1000000000000001#16, 0b0000000000000100#16] =
      .ok (.add 0 (.register 1) (.number 4#15)) := by decide
theorem test_decode_mult :
    decode [0b0000000000001010#16, 0b1000000000000110#16, 0b1000000000000010#16, 0b1000000000000010#16] =
      .ok (.mult 6 (.register 2) (.register 2)) := by decide
theorem test_decode_mod :
    decode [0b0000000000001011#16, 0b1000000000000111#16, 0b1000000000000000#16, 0b0000000001100100#16] =
      .ok (.mod 7 (.register 0) (.number 100#15)) := by decide
theorem test_decode_and :
    decode [0b0000000000001100#16, 0b1000000000000011#16, 0b1000000000000000#16, 0b1000000000000001#16] =
      .ok (.and 3 (.register 0) (.register 1)) := by decide
theorem test_decode_or :
    decode [0b0000000000001101#16, 0b1000000000000010#16, 0b1000000000000000#16, 0b1000000000000001#16] =
      .ok (.or 2 (.register 0) (.register 1)) := by decide
theorem test_decode_not :
    decode [0b0000000000001110#16, 0b1000000000000001#16, 0b1000000000000000#16] = .ok (.not 1 (.register 0)) := by decide
theorem test_decode_rmem :
    decode [0b0000000000001111#16, 0b1000000000000010#16, 0b0000000000010100#16] =
      .ok (.rmem 2 (.number 20#15)) := by decide
theorem test_decode_wmem :
    decode [0b0000000000010000#16, 0b1000000000000000#16, 0b1000000000000001#16] =
      .ok (.wmem (.register 0) (.register 1)) := by decide
theorem test_decode_call : decode [0b0000000000010001#16, 0b1000000000000001#16] = .ok (.call (.register 1)) := by decide
theorem test_decode_ret : decode [0b0000000000010010#16] = .ok .ret := by decide
theorem test_decode_out : decode [0b0000000000010011#16, 0b0000000001001000#16] = .ok (.out (.number 72#15)) := by decide
theorem test_decode_in : decode [0b0000000000010100#16, 0b1000000000000001#16] = .ok (.inp 1) := by decide
theorem test_decode_noop : decode [0b0000000000010101#16] = .ok .noop := by decide

/-- V147. -/
theorem test_classify :
    classify 0#16 = .number 0#15 ∧ classify 32767#16 = .number 32767#15 ∧ classify 32768#16 = .register 0 ∧
    classify 32775#16 = .register 7 ∧ classify 32776#16 = .invalid 32776#16 ∧
    classify 65535#16 = .invalid 65535#16 := by decide

/-- Table rows as spec/opcode_table.json numbers their bits: cell 1 is bits 31..16, and further bits are 0. -/
theorem test_table_word_jt : decodeTableWord 48 0x000580000007 = some (.jt (.register 0) (.number 5#15)) := by decide
theorem test_table_word_short : decodeTableWord 16 0x10 = some (.wmem (.number 0#15) (.number 0#15)) := by decide
/-- R88: a destination cell of 0 is a number, so the row's own sixteen bits followed by zeros are no instruction. -/
theorem test_table_word_no_destination : decodeTableWord 16 1 = none := by decide
theorem test_fetch_word : pcAndHalt (State.reset.withFetchWord 32 0x01000006) = some (256#16, false) := by decide

/-! ### Decode faults -/

/-- V13, V15. -/
theorem test_invalid_destination :
    faultOf (prog [1#16, 5#16, 5#16]) = some (0x23#8, 0#16, 5#16, 2#16) ∧
    faultOf (prog [1#16, 32776#16, 32776#16]) = some (0x23#8, 0#16, 32776#16, 2#16) := by decide
/-- V14, V48: also where a jump would not be taken. -/
theorem test_invalid_operand :
    faultOf (prog [1#16, 32768#16, 32776#16]) = some (0x22#8, 0#16, 32776#16, 3#16) ∧
    faultOf (prog [7#16, 0#16, 40000#16]) = some (0x22#8, 0#16, 40000#16, 3#16) := by decide
/-- V140, V141, V142. -/
theorem test_illegal_opcode :
    faultOf (prog [22#16]) = some (0x21#8, 0#16, 22#16, 1#16) ∧
    faultOf (prog [32768#16]) = some (0x21#8, 0#16, 32768#16, 1#16) ∧
    faultOf (prog [256#16]) = some (0x21#8, 0#16, 256#16, 1#16) := by decide
/-- V4 (second step), V144, V145, V146. -/
theorem test_fetch_range :
    faultOf (progAt 32768 []) = some (0x62#8, 32768#16, 32768#16, 32768#16) ∧
    faultOf (progAt 32767 [1#16]) = some (0x62#8, 32767#16, 32768#16, 32768#16) ∧
    faultOf (progAt 32766 [1#16, 32768#16]) = some (0x62#8, 32766#16, 32768#16, 32768#16) ∧
    faultOf (progAt 32765 [1#16, 5#16, 40000#16]) = some (0x23#8, 32765#16, 5#16, 32767#16) := by decide
/-- V21, V82, V127: a decode fault comes before the instruction's own fault and before its wait. -/
theorem test_decode_first :
    faultOf (prog [3#16, 5#16]) = some (0x23#8, 0#16, 5#16, 2#16) ∧
    faultOf (prog [11#16, 0#16, 7#16, 0#16]) = some (0x23#8, 0#16, 0#16, 2#16) ∧
    faultOf (prog [20#16, 5#16]) = some (0x23#8, 0#16, 5#16, 2#16) := by decide

/-! ### One step of each instruction -/

/-- V1, V3. -/
theorem test_halt : pcAndHalt (prog [0#16]) = some (1#16, true) ∧
    pcAndHalt (progAt 32767 [0#16]) = some (32768#16, true) := by decide
/-- V2, V4. -/
theorem test_noop : pcAndHalt (prog [21#16]) = some (1#16, false) ∧
    pcAndHalt (progAt 32767 [21#16]) = some (32768#16, false) := by decide
/-- V10, V11. -/
theorem test_set : pcAndReg (prog [1#16, 32768#16, 32767#16]) 0 = some (3#16, 32767#15) ∧
    pcAndReg ((prog [1#16, 32775#16, 32769#16]).setReg 1 1234#15) 7 = some (3#16, 1234#15) := by decide
/-- V17. -/
theorem test_push : (after (step ((State.pushed (prog [2#16, 32770#16]) 1#15).setReg 2 7#15))).map State.stack =
    some [1#15, 7#15] := by decide
/-- V19. -/
theorem test_pop : (after (step (((prog [3#16, 32771#16]).pushed 7#15).pushed 9#15))).map
    (fun t => (t.reg 3, t.stack, t.pc)) = some (9#15, [7#15], 2#16) := by decide
/-- V20 (B8). -/
theorem test_pop_empty : faultOf (prog [3#16, 32768#16]) = some (0x41#8, 0#16, 0#16, 2#16) := by decide
/-- V31, V34. -/
theorem test_eq : pcAndReg ((prog [4#16, 32768#16, 32769#16, 4#16]).setReg 1 5#15) 0 = some (4#16, 0#15) ∧
    pcAndReg (prog [4#16, 32768#16, 32767#16, 32767#16]) 0 = some (4#16, 1#15) := by decide
/-- V35, V36, V37: unsigned and strict. -/
theorem test_gt : pcAndReg (prog [5#16, 32768#16, 32767#16, 0#16]) 0 = some (4#16, 1#15) ∧
    pcAndReg (prog [5#16, 32768#16, 0#16, 32767#16]) 0 = some (4#16, 0#15) ∧
    pcAndReg (prog [5#16, 32768#16, 3#16, 3#16]) 0 = some (4#16, 0#15) := by decide
/-- V41, V43. -/
theorem test_jmp : pcAndHalt ((prog [6#16, 32769#16]).setReg 1 300#15) = some (300#16, false) ∧
    pcAndHalt (progAt 32766 [6#16, 100#16]) = some (100#16, false) := by decide
/-- V46 (B5), V47. -/
theorem test_jt : pcAndHalt (prog [7#16, 32768#16, 5#16]) = some (3#16, false) ∧
    pcAndHalt ((prog [7#16, 32768#16, 5#16]).setReg 0 32767#15) = some (5#16, false) := by decide
/-- V49 (B6), V50. -/
theorem test_jf : pcAndHalt (prog [8#16, 32768#16, 9#16]) = some (9#16, false) ∧
    pcAndHalt ((prog [8#16, 32768#16, 9#16]).setReg 0 2#15) = some (3#16, false) := by decide
/-- V53. -/
theorem test_call : (after (step (((progAt 10 [17#16, 32769#16]).setReg 1 200#15).pushed 9#15))).map
    (fun t => (t.stack, t.pc)) = some ([9#15, 12#15], 200#16) := by decide
/-- V54. -/
theorem test_call_top : faultOf (progAt 32766 [17#16, 100#16]) = some (0x64#8, 32766#16, 32768#16, 32768#16) := by decide
/-- V55 (B7), V56. -/
theorem test_ret : pcAndHalt (prog [18#16]) = some (1#16, true) ∧
    pcAndHalt ((prog [18#16]).pushed 2#15) = some (2#16, false) := by decide
/-- V60 (B1), V66. -/
theorem test_add : pcAndReg (prog [9#16, 32768#16, 32767#16, 1#16]) 0 = some (4#16, 0#15) ∧
    pcAndReg ((prog [9#16, 32768#16, 32768#16, 32768#16]).setReg 0 20000#15) 0 = some (4#16, 7232#15) := by decide
/-- V67 (B2), V70. -/
theorem test_mult : pcAndReg (prog [10#16, 32768#16, 32767#16, 32767#16]) 0 = some (4#16, 1#15) ∧
    pcAndReg (prog [10#16, 32768#16, 16384#16, 3#16]) 0 = some (4#16, 16384#15) := by decide
/-- V74, V76. -/
theorem test_mod : pcAndReg (prog [11#16, 32768#16, 21845#16, 100#16]) 0 = some (4#16, 45#15) ∧
    pcAndReg (prog [11#16, 32768#16, 3#16, 7#16]) 0 = some (4#16, 3#15) := by decide
/-- V81. -/
theorem test_mod_zero : faultOf (prog [11#16, 32768#16, 7#16, 0#16]) = some (0x31#8, 0#16, 0#16, 4#16) := by decide
/-- V84, V85. -/
theorem test_and : pcAndReg (prog [12#16, 32768#16, 12#16, 10#16]) 0 = some (4#16, 8#15) ∧
    pcAndReg (prog [12#16, 32768#16, 32767#16, 12345#16]) 0 = some (4#16, 12345#15) := by decide
/-- V86, V87. -/
theorem test_or : pcAndReg (prog [13#16, 32768#16, 21845#16, 10922#16]) 0 = some (4#16, 32767#15) ∧
    pcAndReg (prog [13#16, 32768#16, 12#16, 10#16]) 0 = some (4#16, 14#15) := by decide
/-- V90 (B4), V91. -/
theorem test_not : pcAndReg (prog [14#16, 32768#16, 32767#16]) 0 = some (3#16, 0#15) ∧
    pcAndReg (prog [14#16, 32768#16, 21845#16]) 0 = some (3#16, 10922#15) := by decide
/-- V102, V103. -/
theorem test_rmem : pcAndReg (prog [15#16, 32768#16, 0#16]) 0 = some (3#16, 15#15) ∧
    pcAndReg (prog [15#16, 32768#16, 5000#16]) 0 = some (3#16, 0#15) := by decide
/-- V104. -/
theorem test_rmem_no_number :
    faultOf (prog [15#16, 32768#16, 3#16, 40000#16]) = some (0x63#8, 0#16, 40000#16, 3#16) := by decide
/-- V108: through a register; V110: over its own opcode cell. -/
theorem test_wmem : (after (step ((prog [16#16, 32768#16, 5#16]).setReg 0 100#15))).map
      (fun t => (t.mem.read 100, t.pc)) = some (5#16, 3#16) ∧
    (after (step (prog [16#16, 0#16, 21#16]))).map (fun t => (t.mem.read 0, t.pc)) = some (21#16, 3#16) := by decide
/-- V121. -/
theorem test_out : (after (step ((prog [19#16, 32775#16]).setReg 7 32767#15))).map (fun t => (t.outTrace, t.pc)) =
    some ([32767#15], 2#16) := by decide
/-- V124. -/
theorem test_out_failed :
    faultOf (State.boot {} { outFailAt := some 0 } (Memory.ofImage [19#16, 72#16])) =
      some (0x52#8, 0#16, 0#16, 2#16) := by decide
/-- V129. -/
theorem test_in : (after (step (State.boot {} { input := [104#15, 105#15, 10#15] } (Memory.ofImage [20#16, 32769#16])))).map
    (fun t => (t.reg 1, t.inPos, t.pc)) = some (104#15, 1, 2#16) := by decide
/-- V126. -/
theorem test_in_eof : faultOf (State.boot {} { inputEnd := .eof } (Memory.ofImage [20#16, 32768#16])) =
    some (0x51#8, 0#16, 0#16, 2#16) := by decide
/-- V128: the machine stays RUNNING where it is. -/
theorem test_in_waits : after (step (prog [20#16, 32768#16])) = some (prog [20#16, 32768#16]) := by decide

/-! ### Reset, loader and host -/

/-- V148. -/
theorem test_image : (match loadImage (some [0x09#8, 0x00#8, 0x00#8, 0x80#8, 0x01#8, 0x80#8, 0x04#8, 0x00#8]) with
    | .ok cells => some cells
    | .error _ => none) = some [9#16, 32768#16, 32769#16, 4#16] := by decide
/-- V5: the empty image halts at its first step. -/
theorem test_empty_image : pcAndHalt State.reset = some (1#16, true) := by decide
/-- P4's report (R215): kind 3, ArithmeticError. -/
theorem test_fault_kind : faultKind 0x31#8 = 3#4 := by decide

/-! ### Witnesses: for each obligation with hypotheses, values that meet all of them, clause by clause -/

/-- A state whose decoded instruction ends at cell 32767, and one whose cells are the encoding of a well-formed instruction
of full length there. -/
theorem witness_StepRunsTheDecodedInstruction :
    (progAt 32767 [21#16]).halted = false ∧ decode (progAt 32767 [21#16]).window = .ok .noop ∧
    (Instr.add 7 (.number 32767#15) (.register 7)).wf = true ∧
    (progAt 32764 (encode (.add 7 (.number 32767#15) (.register 7)))).pc.toNat +
      (Instr.add 7 (.number 32767#15) (.register 7)).length = 32768 ∧
    (progAt 32764 (encode (.add 7 (.number 32767#15) (.register 7)))).window =
      encode (.add 7 (.number 32767#15) (.register 7)) := by decide

theorem witness_DecodeOfEncodeIsTheInstruction : (Instr.add 7 (.number 32767#15) (.register 7)).wf = true ∧
    Instr.halt.wf = true := by decide

theorem witness_EncodeOfDecodeIsTheCells :
    decode [9#16, 32775#16, 32767#16, 32775#16, 22#16] = .ok (.add 7 (.number 32767#15) (.register 7)) := by decide

/-- Both sides of every bound: opcodes 0, 21, 22, 32 (bit 5 alone) and 65535. -/
theorem witness_OpcodeIsTheWholeCell :
    decode [0#16] = .ok .halt ∧ decode [21#16] = .ok .noop ∧
    decode [22#16] = .error ⟨.illegalOpcode 22#16, 1⟩ ∧ decode [32#16] = .error ⟨.illegalOpcode 32#16, 1⟩ ∧
    decode [65535#16] = .error ⟨.illegalOpcode 65535#16, 1⟩ := by decide

/-- The last and first cell of each class, in a source and in a destination position. -/
theorem witness_OperandCellsHaveThreeClasses :
    srcAt [0#16, 32767#16] 1 = .ok (.number 32767#15) ∧ srcAt [0#16, 32768#16] 1 = .ok (.register 0) ∧
    srcAt [0#16, 32775#16] 1 = .ok (.register 7) ∧ srcAt [0#16, 32776#16] 1 = .error ⟨.invalidOperand 32776#16, 2⟩ ∧
    dstAt [0#16, 32767#16] 1 = .error ⟨.invalidDestination 32767#16, 2⟩ ∧ dstAt [0#16, 32768#16] 1 = .ok 0 ∧
    dstAt [0#16, 32775#16] 1 = .ok 7 ∧ dstAt [0#16, 32776#16] 1 = .error ⟨.invalidDestination 32776#16, 2⟩ := by decide

theorem witness_ValueResolvesASourceCell :
    State.reset.value (classify 32767#16) = some 32767#15 ∧
    (State.reset.setReg 0 3#15).value (classify 32768#16) = some 3#15 ∧
    (State.reset.setReg 7 5#15).value (classify 32775#16) = some 5#15 ∧
    State.reset.value (classify 32776#16) = none := by decide

theorem witness_RunningMachineHasANextState : State.reset.halted = false ∧ (progAt 32768 []).halted = false := by decide

/-- Each way to set the flag, and a halted state that an instruction leaves halted. -/
theorem witness_HaltFlagIsSetByHaltRetAndFaultsOnly :
    State.reset.stop.halted = true ∧ (after (exec .halt State.reset)).map State.halted = some true ∧
    State.reset.stack = [] ∧ (after (exec .ret State.reset)).map State.halted = some true ∧
    (prog [22#16]).faultCause = 0#8 ∧
    (after (step (prog [22#16]))).map (fun t => (t.faultCause, t.halted)) = some (0x21#8, true) ∧
    (after (exec .noop State.reset.stop)).map State.halted = some true := by decide

/-- Every instruction group goes on without a fault from a state without one. -/
theorem witness_PcAfterEachInstruction :
    (State.reset.pushed 3#15).faultCause = 0#8 ∧
    (after (exec .halt State.reset)).map State.faultCause = some 0#8 ∧
    (after (exec .noop State.reset)).map State.faultCause = some 0#8 ∧
    (after (exec (.rmem 0 (.number 32767#15)) State.reset)).map State.faultCause = some 0#8 ∧
    (after (exec (.wmem (.number 32767#15) (.register 1)) State.reset)).map State.faultCause = some 0#8 ∧
    (after (exec (.push (.register 7)) State.reset)).map State.faultCause = some 0#8 ∧
    (after (exec (.pop 7) (State.reset.pushed 3#15))).map State.faultCause = some 0#8 ∧
    (after (exec (.inp 7) (State.boot {} { input := [255#15] } []))).map State.faultCause = some 0#8 ∧
    (State.boot {} { input := [255#15] } []).inAnswer ≠ none ∧
    (after (exec (.mod 0 (.number 1#15) (.number 1#15)) State.reset)).map State.faultCause = some 0#8 := by decide
theorem witness_PcAfterEachTransfer :
    State.reset.value (.register 0) = some 0#15 ∧ State.reset.value (.number 32767#15) = some 32767#15 ∧
    (after (exec (.jmp (.number 32767#15)) State.reset)).map State.faultCause = some 0#8 ∧
    (after (exec (.jt (.register 0) (.number 5#15)) State.reset)).map State.faultCause = some 0#8 ∧
    (after (exec (.jf (.register 0) (.number 5#15)) State.reset)).map State.faultCause = some 0#8 ∧
    (after (exec (.call (.number 0#15)) (progAt 32765 []))).map State.faultCause = some 0#8 ∧
    (after (exec .ret State.reset)).map State.faultCause = some 0#8 ∧
    (after (exec .ret (State.reset.pushed 32767#15))).map State.faultCause = some 0#8 ∧
    (State.reset.pushed 32767#15).stack = [] ++ [32767#15] := by decide

/-- The smallest illegal opcode, at the last cell. -/
theorem witness_IllegalOpcodeIsRaised :
    (progAt 32767 [22#16]).halted = false ∧ (progAt 32767 [22#16]).pc.toNat < 32768 ∧
    22 ≤ ((progAt 32767 [22#16]).mem.read 32767).toNat := by decide

/-- The smallest invalid value, in the last source position, at the last cell. -/
theorem witness_InvalidOperandIsRaised :
    let i : Instr := .add 0 (.number 1#15) (.number 1#15)
    let s := progAt 32764 [9#16, 32768#16, 1#16, 32776#16]
    i.wf = true ∧ s.halted = false ∧ i.kinds[2]? = some .src ∧ s.pc.toNat + 1 + 2 < 32768 ∧
    (∀ k < 3, (encode i)[k]? = some (s.mem.read (s.pc.toNat + k))) ∧
    32776 ≤ (s.mem.read (s.pc.toNat + 1 + 2)).toNat := by decide

/-- A number at the upper end, and the smallest invalid value. -/
theorem witness_InvalidDestinationIsRaised :
    let s := progAt 32766 [20#16, 32767#16]
    let u := progAt 0 [1#16, 32776#16]
    s.halted = false ∧ (Instr.inp 0).kinds.head? = some .dst ∧ s.pc.toNat + 1 < 32768 ∧
    (encode (.inp 0)).head? = some (s.mem.read s.pc.toNat) ∧ (s.mem.read (s.pc.toNat + 1)).toNat < 32768 ∧
    u.halted = false ∧ (Instr.set 0 (.number 0)).kinds.head? = some .dst ∧ u.pc.toNat + 1 < 32768 ∧
    (encode (.set 0 (.number 0))).head? = some (u.mem.read u.pc.toNat) ∧
    32776 ≤ (u.mem.read (u.pc.toNat + 1)).toNat := by decide

/-- At the opcode, and at the last operand of a full-length instruction. -/
theorem witness_FetchPastTheTopIsRaised :
    let i : Instr := .add 0 (.number 1#15) (.number 1#15)
    let s := progAt 32765 [9#16, 32768#16, 1#16]
    (progAt 32768 []).halted = false ∧ (progAt 32768 []).pc = 32768#16 ∧
    i.wf = true ∧ s.halted = false ∧ s.pc.toNat < 32768 ∧ 32768 < s.pc.toNat + i.length ∧
    (∀ k < 3, (encode i)[k]? = some (s.mem.read (s.pc.toNat + k))) := by decide

/-- Readable operands of both forms, at the ends of the ranges: the hypothesis of SetEffect, CompareEffect, JumpEffect,
AddMultAreModular, BitwiseInstructionsActBitByBit and, with the next theorem, of ModIsTheUniqueRemainder. -/
theorem witness_operands_readable :
    (State.reset.setReg 7 32767#15).value (.register 7) = some 32767#15 ∧
    State.reset.value (.register 0) = some 0#15 ∧ State.reset.value (.number 32767#15) = some 32767#15 ∧
    State.reset.value (.number 0#15) = some 0#15 := by decide
theorem witness_ModIsTheUniqueRemainder :
    State.reset.value (.number 32767#15) = some 32767#15 ∧ (32767#15 : Number) ≠ 0#15 ∧
    State.reset.value (.register 0) = some 0#15 := by decide

/-- A stack of one entry with room for one more, and a full one. -/
theorem witness_PushEffect :
    let room : State := { State.reset.pushed 1#15 with cfg := { stackDepth := some 2 } }
    let full : State := { State.reset.pushed 1#15 with cfg := { stackDepth := some 1 } }
    room.value (.number 5#15) = some 5#15 ∧ room.cfg.stackDepth ≠ some room.stack.length ∧
    full.value (.number 5#15) = some 5#15 ∧ full.cfg.stackDepth = some full.stack.length := by decide

theorem witness_PopEffect : (State.reset.pushed 9#15).stack = [] ++ [9#15] ∧ State.reset.stack = [] := by decide

/-- The last call that may be made, the first that may not, and one on a full stack. -/
theorem witness_CallEffect :
    let s := progAt 32765 []
    let full : State := { s with cfg := { stackDepth := some 0 } }
    s.value (.number 5#15) = some 5#15 ∧ s.pc.toNat + 2 < 32768 ∧ s.cfg.stackDepth ≠ some s.stack.length ∧
    (progAt 32766 []).value (.number 5#15) = some 5#15 ∧ (progAt 32766 []).pc.toNat + 2 = 32768 ∧
    full.value (.number 5#15) = some 5#15 ∧ full.pc.toNat + 2 < 32768 ∧
    full.cfg.stackDepth = some full.stack.length := by decide

theorem witness_RetEffect : (State.reset.pushed 32767#15).stack = [] ++ [32767#15] ∧ State.reset.stack = [] := by decide

/-- The greatest number a cell holds, and the smallest value that is none. -/
theorem witness_RmemEffect :
    (progAt 32767 [32767#16]).value (.number 32767#15) = some 32767#15 ∧
    ((progAt 32767 [32767#16]).mem.read (32767#15 : Number).toNat).toNat < 32768 ∧
    (progAt 32767 [32768#16]).value (.number 32767#15) = some 32767#15 ∧
    32768 ≤ ((progAt 32767 [32768#16]).mem.read (32767#15 : Number).toNat).toNat := by decide

theorem witness_WmemEffect :
    (progAt 32767 [1#16]).mem.wf = true ∧ (progAt 32767 [1#16]).value (.number 32767#15) = some 32767#15 ∧
    (progAt 32767 [1#16]).value (.register 0) = some 0#15 := by decide

/-- A host that never fails, one that may not, and one that fails now. -/
theorem witness_OutEffect :
    let cannot : State := State.boot { hostCanFail := false } { outFailAt := some 0 } []
    let fails : State := State.boot {} { outFailAt := some 0 } []
    State.reset.value (.register 0) = some 0#15 ∧ State.reset.host.outFailAt ≠ some State.reset.outTrace.length ∧
    cannot.value (.register 0) = some 0#15 ∧ cannot.cfg.hostCanFail = false ∧
    fails.value (.register 0) = some 0#15 ∧ fails.cfg.hostCanFail = true ∧
    fails.host.outFailAt = some fails.outTrace.length := by decide

/-- The greatest value allowed; end of input; failure. -/
theorem witness_InEffect :
    let value : State := State.boot {} { input := [255#15] } []
    let ended : State := State.boot {} { inputEnd := .eof } []
    let failed : State := State.boot {} { inputEnd := .failed } []
    value.host.input[value.inPos]? = some 255#15 ∧ (255#15 : Number).toNat ≤ value.cfg.inMax.toNat ∧
    ended.host.input.length ≤ ended.inPos ∧ ended.host.inputEnd = .eof ∧
    failed.host.input.length ≤ failed.inPos ∧ failed.host.inputEnd = .failed ∧ failed.cfg.hostCanFail = true := by decide

theorem witness_InHoldsUntilTheHostAnswers :
    State.reset.host.input.length ≤ State.reset.inPos ∧ State.reset.host.inputEnd = .silent := by decide

theorem witness_InWritesTheNextInputValue :
    ∃ t, exec (.inp 0) (State.boot {} { input := [255#15] } []) = .next t ∧
      t.inPos ≠ (State.boot {} { input := [255#15] } []).inPos := ⟨_, rfl, by decide⟩

/-- One instruction of each kind answers a next state: the hypothesis of the frames OnlyTheDestinationRegisterChanges,
OnlyWmemChangesOneCell, StackChangesOnlyAtTheTop, OnlyOutEmitsAndOnlyInConsumes, FaultRecordFrame and
NoInstructionReadsTheFaultRecord. -/
theorem witness_frames :
    (∃ t, exec (.set 0 (.number 5#15)) State.reset = .next t ∧ (Instr.set 0 (.number 5#15)).dest? ≠ some 1) ∧
    (∃ t, exec (.wmem (.number 3#15) (.number 5#15)) State.reset = .next t ∧
      State.reset.value (.number 3#15) = some 3#15 ∧ (4 : Nat) ≠ (3#15 : Number).toNat) ∧
    (∃ t, exec (.pop 0) (State.reset.pushed 1#15) = .next t) ∧ (∃ t, exec (.out (.number 5#15)) State.reset = .next t) ∧
    (∃ t, exec (.inp 0) (State.boot {} { input := [1#15] } []) = .next t) ∧
    (∃ t, exec (.pop 0) State.reset = .next t) :=
  ⟨⟨_, rfl, by decide⟩, ⟨_, rfl, by decide, by decide⟩, ⟨_, rfl⟩, ⟨_, rfl⟩, ⟨_, rfl⟩, ⟨_, rfl⟩⟩

theorem witness_FaultsArePrecise :
    (progAt 32768 []).pc.toNat ≤ 32768 ∧ (progAt 32768 []).faultCause = 0#8 ∧
    ∃ t, step (progAt 32768 []) = .next t ∧ t.faultCause ≠ 0#8 :=
  ⟨by decide, by decide, _, rfl, by decide⟩

theorem witness_ExecuteFaultsOfEachInstruction :
    (Instr.pop 0).wf = true ∧ State.reset.faultCause = 0#8 ∧ ∃ t, exec (.pop 0) State.reset = .next t :=
  ⟨by decide, by decide, _, rfl⟩

/-- A machine meeting each of the four decode faults. -/
theorem witness_DecodeFaultsComeFirst :
    (progAt 32767 [9#16]).halted = false ∧ decode (progAt 32767 [9#16]).window = .error ⟨.outOfCells, 1⟩ ∧
    decode (prog [22#16]).window = .error ⟨.illegalOpcode 22#16, 1⟩ ∧
    decode (prog [2#16, 32776#16]).window = .error ⟨.invalidOperand 32776#16, 2⟩ ∧
    decode (prog [3#16, 32767#16]).window = .error ⟨.invalidDestination 32767#16, 2⟩ := by decide

/-- A state of the invariant that is not the reset state: registers, stack and memory in use. -/
theorem witness_EveryStepKeepsTheInvariant :
    ((prog [2#16, 32767#16]).pushed 5#15).Inv ∧ ∃ t, step ((prog [2#16, 32767#16]).pushed 5#15) = .next t :=
  ⟨⟨by decide, by decide, by decide, by decide, by decide, by decide, by decide⟩, _, rfl⟩

/-- Reset, and the state of a machine that has just recorded a fault. -/
theorem witness_ReachableStatesHaveTheInvariant :
    Reachable State.reset ∧ ∃ t, Reachable t ∧ t.faultCause = 0x41#8 :=
  ⟨.boot {} {} [], _, .step _ _ (.boot {} {} [3#16, 32768#16]) rfl, by decide⟩

theorem witness_ProgramsWriteOnlyNumbers :
    (prog [16#16, 35#16, 65#16]).mem.wf = true ∧
    ∃ t, step (prog [16#16, 35#16, 65#16]) = .next t ∧ t.mem.read 35 ≠ (prog [16#16, 35#16, 65#16]).mem.read 35 :=
  ⟨by decide, _, rfl, by decide⟩

theorem witness_StoreThenLoadGivesTheValue :
    State.reset.mem.wf = true ∧ State.reset.value (.number 32767#15) = some 32767#15 ∧
    State.reset.value (.number 5#15) = some 5#15 ∧
    ∃ t, exec (.wmem (.number 32767#15) (.number 5#15)) State.reset = .next t ∧
      t.value (.number 32767#15) = some 32767#15 :=
  ⟨by decide, by decide, by decide, _, rfl, by decide⟩

/-- A store to the fourth cell after the instruction's own. -/
theorem witness_StoreIsSeenByTheNextFetch :
    State.reset.mem.wf = true ∧ State.reset.value (.number 6#15) = some 6#15 ∧
    State.reset.value (.number 5#15) = some 5#15 ∧
    ∃ t, exec (.wmem (.number 6#15) (.number 5#15)) State.reset = .next t ∧
      t.pc.toNat + 3 = (6#15 : Number).toNat :=
  ⟨by decide, by decide, by decide, _, rfl, by decide⟩

theorem witness_StackIsLastInFirstOut :
    State.reset.stack = [] ∧ (State.reset.pushed 9#15).stack = [] ++ [9#15] ∧
    State.reset.value (.number 5#15) = some 5#15 ∧ State.reset.cfg.stackDepth ≠ some State.reset.stack.length ∧
    ∃ t, exec (.push (.number 5#15)) State.reset = .next t :=
  ⟨by decide, by decide, by decide, by decide, _, rfl⟩

/-- The last call that may be made, and the state it leaves for the return. -/
theorem witness_RetAfterCallReturnsBehindTheCall :
    (progAt 32765 []).value (.number 5#15) = some 5#15 ∧ (progAt 32765 []).pc.toNat + 2 < 32768 ∧
    (progAt 32765 []).cfg.stackDepth ≠ some (progAt 32765 []).stack.length ∧
    ∃ t u : State, exec (.call (.number 5#15)) (progAt 32765 []) = .next t ∧ u.stack = t.stack :=
  ⟨by decide, by decide, by decide, _, _, rfl, rfl⟩

theorem witness_OnlyPortInstructionsDependOnTheHost :
    (∀ a, Instr.pop 0 ≠ .out a) ∧ ∀ d, Instr.pop 0 ≠ .inp d := ⟨nofun, nofun⟩

/-- The longest image there can be is allowed; its first and last cell, and the first cell after a shorter one. -/
theorem witness_ResetLeavesTheStatedValues :
    (List.replicate 32768 1#16).length ≤ 32768 ∧ (0 : Nat) < [1#16].length ∧ [1#16].length ≤ 1 :=
  ⟨by rw [List.length_replicate], by decide, by decide⟩

/-- Two different states with the same parameters and host. -/
theorem witness_ResetDiscardsTheState :
    State.reset.cfg = State.reset.stop.cfg ∧ State.reset.host = State.reset.stop.host ∧
    State.reset ≠ State.reset.stop := by decide

/-- One byte, one byte pair too many, and the longest file there can be. -/
theorem witness_ImageBytesBecomeCells :
    [1#8].length % 2 = 1 ∧ (List.replicate 65538 0#8).length % 2 = 0 ∧ 65536 < (List.replicate 65538 0#8).length ∧
    (List.replicate 65536 0#8).length % 2 = 0 ∧ (List.replicate 65536 0#8).length ≤ 65536 ∧
    [1#8, 2#8][2 * 0]? = some 1#8 ∧ [1#8, 2#8][2 * 0 + 1]? = some 2#8 := by
  simp only [List.length_replicate]
  decide

theorem witness_ExitCodeTellsCleanHaltFromFault :
    State.reset.halted = false ∧ State.reset.stop.halted = true ∧ State.reset.stop.faultCause = 0#8 ∧
    (State.reset.raise 0#16 .divideByZero 0#16).halted = true ∧
    (State.reset.raise 0#16 .divideByZero 0#16).faultCause ≠ 0#8 := by decide

end Sys2Proof.Tests
end

section
/-! Facts that every step's proof needs: an accepted instruction and a rejection lie within the cells that exist (R84, R89),
so the pc stays legal (R26); and the causes' codes (R201). -/

namespace Sys2Proof

/-! ### The cells of a decoded instruction were there to fetch (R84, R89) -/

theorem decodeFS_length_le {mk : Operand → Instr} {cells : List Cell} {i : Instr} (hmk : ∀ a, (mk a).length = 2)
    (h : decodeFS mk cells = .ok i) : i.length ≤ cells.length := by
  obtain ⟨a, ⟨ha, -⟩, rfl⟩ := decodeFS_eq_ok.1 h
  exact hmk a ▸ (List.getElem?_eq_some_iff.1 ha).1

theorem decodeFD_length_le {mk : Reg → Instr} {cells : List Cell} {i : Instr} (hmk : ∀ d, (mk d).length = 2)
    (h : decodeFD mk cells = .ok i) : i.length ≤ cells.length := by
  obtain ⟨d, hd, rfl⟩ := decodeFD_eq_ok.1 h
  exact hmk d ▸ (List.getElem?_eq_some_iff.1 hd).1

theorem decodeFDS_length_le {mk : Reg → Operand → Instr} {cells : List Cell} {i : Instr}
    (hmk : ∀ d b, (mk d b).length = 3) (h : decodeFDS mk cells = .ok i) : i.length ≤ cells.length := by
  obtain ⟨d, b, -, ⟨hb, -⟩, rfl⟩ := decodeFDS_eq_ok.1 h
  exact hmk d b ▸ (List.getElem?_eq_some_iff.1 hb).1

theorem decodeFSS_length_le {mk : Operand → Operand → Instr} {cells : List Cell} {i : Instr}
    (hmk : ∀ a b, (mk a b).length = 3) (h : decodeFSS mk cells = .ok i) : i.length ≤ cells.length := by
  obtain ⟨a, b, -, ⟨hb, -⟩, rfl⟩ := decodeFSS_eq_ok.1 h
  exact hmk a b ▸ (List.getElem?_eq_some_iff.1 hb).1

theorem decodeFDSS_length_le {mk : Reg → Operand → Operand → Instr} {cells : List Cell} {i : Instr}
    (hmk : ∀ d b c, (mk d b c).length = 4) (h : decodeFDSS mk cells = .ok i) : i.length ≤ cells.length := by
  obtain ⟨d, b, c, -, -, ⟨hc, -⟩, rfl⟩ := decodeFDSS_eq_ok.1 h
  exact hmk d b c ▸ (List.getElem?_eq_some_iff.1 hc).1

/-- An accepted instruction is no longer than the cells it was read from. -/
theorem decode_length_le {cells : List Cell} {i : Instr} (h : decode cells = .ok i) : i.length ≤ cells.length := by
  cases cells with
  | nil => cases h
  | cons op rest =>
    have one : 1 ≤ (op :: rest).length := Nat.le_add_left 1 _
    rw [decode_cons] at h
    unfold decodeOp at h
    split at h
    · cases h; exact one
    · exact decodeFDS_length_le (fun _ _ => rfl) h
    · exact decodeFS_length_le (fun _ => rfl) h
    · exact decodeFD_length_le (fun _ => rfl) h
    · exact decodeFDSS_length_le (fun _ _ _ => rfl) h
    · exact decodeFDSS_length_le (fun _ _ _ => rfl) h
    · exact decodeFS_length_le (fun _ => rfl) h
    · exact decodeFSS_length_le (fun _ _ => rfl) h
    · exact decodeFSS_length_le (fun _ _ => rfl) h
    · exact decodeFDSS_length_le (fun _ _ _ => rfl) h
    · exact decodeFDSS_length_le (fun _ _ _ => rfl) h
    · exact decodeFDSS_length_le (fun _ _ _ => rfl) h
    · exact decodeFDSS_length_le (fun _ _ _ => rfl) h
    · exact decodeFDSS_length_le (fun _ _ _ => rfl) h
    · exact decodeFDS_length_le (fun _ _ => rfl) h
    · exact decodeFDS_length_le (fun _ _ => rfl) h
    · exact decodeFSS_length_le (fun _ _ => rfl) h
    · exact decodeFS_length_le (fun _ => rfl) h
    · cases h; exact one
    · exact decodeFS_length_le (fun _ => rfl) h
    · exact decodeFD_length_le (fun _ => rfl) h
    · cases h; exact one
    · cases h

namespace Machine

theorem Memory.length_cellsFrom_le (m : Memory) {a : Nat} (ha : a ≤ memCells) (n : Nat) :
    a + (m.cellsFrom a n).length ≤ memCells := by
  induction n generalizing a with
  | zero => simpa [Memory.cellsFrom] using ha
  | succ n ih =>
    unfold Memory.cellsFrom
    split
    · next hlt =>
      have := ih (a := a + 1) hlt
      rw [List.length_cons]
      omega
    · simpa using ha

/-- From a legal pc, advancing over cells of the window leaves a legal pc (R26). -/
theorem State.consume_pc_le {s : State} {k : Nat} (hpc : s.pc.toNat ≤ memCells) (hk : k ≤ s.window.length) :
    (s.consume k).pc.toNat ≤ memCells := by
  have hw : s.pc.toNat + s.window.length ≤ memCells := s.mem.length_cellsFrom_le hpc maxLength
  unfold memCells at *
  rw [State.consume_pc, BitVec.toNat_add, BitVec.toNat_ofNat]
  omega

/-! ### Causes (R201) -/

theorem Cause.code_ne_zero (c : Cause) : c.code ≠ 0#8 := by
  cases c <;> decide

theorem Cause.code_mem_recordCodes {c : Cause} (hc : c ≠ .loadError) : c.code ∈ recordCodes := by
  cases c with
  | loadError => exact absurd rfl hc
  | _ => decide

theorem decodeCause_ne_loadError (w : DecodeFault) : decodeCause w ≠ .loadError := by
  cases w <;> exact Cause.noConfusion

/-- A number is a legal pc (R24, R26). -/
theorem numCell_le_memCells (n : Number) : (numCell n).toNat ≤ memCells := by
  rw [numCell_toNat]
  exact n.isLt.le

end Machine
end Sys2Proof
end

section
/-! The state invariant (R36): reset has it, every effect keeps it, so every reachable state has it. -/

namespace Sys2Proof.Machine

theorem State.stackFits_iff {s : State} :
    s.stackFits = true ↔ ∀ n, s.cfg.stackDepth = some n → s.stack.length ≤ n := by
  unfold State.stackFits
  cases s.cfg.stackDepth <;> simp

/-- A stack that is not full has room for one more entry (R29). -/
theorem State.stackFits_pushed {s : State} (hs : s.stackFits = true) (hf : s.stackFull = false) (v : Number) :
    (s.pushed v).stackFits = true := by
  rw [State.stackFits_iff] at hs ⊢
  intro n hn
  have hle : s.stack.length ≤ n := hs n hn
  have hne : s.stack.length ≠ n := fun e => by
    rw [← Bool.not_eq_true, State.stackFull_iff] at hf
    exact hf (e ▸ hn)
  rw [State.pushed_stack, List.length_append, List.length_singleton]
  omega

theorem State.stackFits_popped {s : State} (hs : s.stackFits = true) : s.popped.stackFits = true := by
  rw [State.stackFits_iff] at hs ⊢
  intro n hn
  have hle : s.stack.length ≤ n := hs n hn
  rw [State.popped_stack, List.length_dropLast]
  omega

/-- What keeps the invariant without touching the fault record: a legal pc, a canonical memory, a stack that fits. -/
theorem State.Inv.of_record_eq {s t : State} (hs : s.Inv) (hpc : t.pc.toNat ≤ memCells) (hmem : t.mem.wf = true)
    (hstack : t.stackFits = true) (hc : t.faultCause = s.faultCause) (hp : t.faultPc = s.faultPc)
    (hx : t.faultInfo = s.faultInfo) (hh : s.halted = true → t.halted = true) : t.Inv where
  pc := hpc
  mem := hmem
  halted h := hh (hs.halted (hc ▸ h))
  code := hc ▸ hs.code
  faultPc := hp ▸ hs.faultPc
  clear h := hp ▸ hx ▸ hs.clear (hc ▸ h)
  stack := hstack

/-- Raising a fault keeps the invariant (R203). -/
theorem State.Inv.raise {s : State} (hs : s.Inv) {k : Nat} (hpc : (s.consume k).pc.toNat ≤ memCells) {c : Cause}
    (hc : c ≠ .loadError) (x : Cell) : ((s.consume k).raise s.pc c x).Inv where
  pc := hpc
  mem := hs.mem
  halted _ := rfl
  code := Cause.code_mem_recordCodes hc
  faultPc := hs.pc
  clear h := absurd h c.code_ne_zero
  stack := hs.stack

/-- Every effect an instruction can have keeps the invariant, if the cells of the instruction exist. -/
theorem State.Inv.effect {s t : State} {i : Instr} (hs : s.Inv) (hpc : (s.consume i.length).pc.toNat ≤ memCells)
    (h : Effect i s t) : t.Inv := by
  cases h with
  | raise c x hc _ => exact hs.raise hpc hc x
  | halt _ => exact hs.of_record_eq hpc hs.mem hs.stack rfl rfl rfl fun _ => rfl
  | advance => exact hs.of_record_eq hpc hs.mem hs.stack rfl rfl rfl id
  | jump t => exact hs.of_record_eq (numCell_le_memCells t) hs.mem hs.stack rfl rfl rfl id
  | register d v _ => exact hs.of_record_eq hpc hs.mem hs.stack rfl rfl rfl id
  | push v _ hf => exact hs.of_record_eq hpc hs.mem (State.stackFits_pushed hs.stack hf v) rfl rfl rfl id
  | pop d v _ _ => exact hs.of_record_eq hpc hs.mem (State.stackFits_popped hs.stack) rfl rfl rfl id
  | call v t _ hf =>
    exact hs.of_record_eq (numCell_le_memCells t) hs.mem (State.stackFits_pushed hs.stack hf v) rfl rfl rfl id
  | ret v _ _ => exact hs.of_record_eq (numCell_le_memCells v) hs.mem (State.stackFits_popped hs.stack) rfl rfl rfl id
  | store a b ea v _ _ _ => exact hs.of_record_eq hpc (Memory.wf_write hs.mem ea.isLt) hs.stack rfl rfl rfl id
  | emit a v _ _ => exact hs.of_record_eq hpc hs.mem hs.stack rfl rfl rfl id
  | input d v _ _ => exact hs.of_record_eq hpc hs.mem hs.stack rfl rfl rfl id
  | hold _ _ => exact hs

theorem State.inv_boot (cfg : Config) (host : HostScript) (image : List Cell) :
    (State.boot cfg host (Memory.ofImage image)).Inv where
  pc := Nat.zero_le _
  mem := Memory.wf_ofImage image
  halted h := absurd rfl h
  code := List.mem_cons_self
  faultPc := Nat.zero_le _
  clear _ := ⟨rfl, rfl⟩
  stack := State.stackFits_iff.2 fun n _ => Nat.zero_le n

/-- Settles O41: a canonical memory and zeros everywhere else. -/
theorem invariantHoldsAfterReset : Obligations.InvariantHoldsAfterReset :=
  ⟨State.inv_boot {} {} [], State.inv_boot⟩

/-- Settles O42: a decode fault and an instruction's effect both advance the pc over cells of the window only, so it
stays legal; the rest is `State.Inv.raise` and `State.Inv.effect`. -/
theorem everyStepKeepsTheInvariant : Obligations.EveryStepKeepsTheInvariant := by
  intro s t hs h
  obtain ⟨-, ⟨r, hr, rfl⟩ | ⟨i, hi, hx⟩⟩ := step_cases h
  · obtain ⟨-, -, hused⟩ := decode_quotes hr
    exact hs.raise (State.consume_pc_le hs.pc hused) (decodeCause_ne_loadError r.why) _
  · exact hs.effect (State.consume_pc_le hs.pc (decode_length_le hi)) (exec_cases hx)

/-- Settles O43, by induction over the ways a state is reached. -/
theorem reachableStatesHaveTheInvariant : Obligations.ReachableStatesHaveTheInvariant := by
  intro s h
  induction h with
  | boot cfg host image => exact State.inv_boot cfg host image
  | step s t _ hst hs => exact everyStepKeepsTheInvariant s t hs hst
  | hostActs s host _ hs => exact hs.of_record_eq hs.pc hs.mem hs.stack rfl rfl rfl id
  | reset s image _ _ => exact State.inv_boot s.cfg s.host image

end Sys2Proof.Machine
end

section
/-! What an instruction leaves unchanged (10_state.md): registers, memory, stack, ports. Each frame is a case split over
`Effect`, which `exec_cases` gives. -/

namespace Sys2Proof.Machine

/-- Settles O32: only the `input` effect moves `in_pos`, and it writes what the port answered. -/
theorem inWritesTheNextInputValue : Obligations.InWritesTheNextInputValue := by
  intro s t d h hne
  cases exec_cases h with
  | input d' v hd hv =>
    obtain rfl : d = d' := Instr.inp.inj hd
    have hreg : (((s.consume (Instr.inp d).length).inputTaken).setReg d v).reg d = v := by simp [State.reg_setReg]
    rw [hreg]
    exact ⟨rfl, inAnswer_value hv⟩
  | _ => exact absurd rfl hne

/-- The register frame of R23. -/
theorem exec_reg_of_ne_dest {i : Instr} {s t : State} (h : exec i s = .next t) {r : Reg} (hr : i.dest? ≠ some r) :
    t.reg r = s.reg r := by
  have frame {u : State} {d : Reg} (v : Number) (hd : i.dest? = some d) : (u.setReg d v).reg r = u.reg r := by
    rw [State.reg_setReg, if_neg]
    rintro rfl
    exact hr hd
  cases exec_cases h with
  | register d v hd => exact frame v hd
  | pop d v hi _ => exact frame v (hi ▸ rfl)
  | input d v hi _ => exact frame v (hi ▸ rfl)
  | _ => rfl

/-- Settles O33: the frame, and a `set` of a number read back. -/
theorem onlyTheDestinationRegisterChanges : Obligations.OnlyTheDestinationRegisterChanges := by
  refine ⟨fun i s t h r hr => exec_reg_of_ne_dest h hr, fun s d n => ⟨(s.consume 3).setReg d n, rfl, ?_⟩⟩
  simp [State.reg_setReg]

/-- The memory frame of R41: an instruction leaves memory as it was, or stores a number at the address that a `wmem`
names. -/
theorem exec_mem_cases {i : Instr} {s t : State} (h : exec i s = .next t) :
    t.mem = s.mem ∨
    ∃ a b ea v, i = .wmem a b ∧ s.value a = some ea ∧ t.mem = s.mem.write ea.toNat (numCell v) := by
  cases exec_cases h with
  | store a b ea v hi ha _ => exact .inr ⟨a, b, ea, v, hi, ha, rfl⟩
  | _ => exact .inl rfl

/-- Settles O34, from the memory frame and what a write leaves alone. -/
theorem onlyWmemChangesOneCell : Obligations.OnlyWmemChangesOneCell := by
  intro i s t h
  rcases exec_mem_cases h with hm | ⟨a, b, ea, v, rfl, ha, hm⟩
  · exact ⟨fun _ x => hm ▸ rfl, fun _ _ _ _ _ x _ => hm ▸ rfl⟩
  · refine ⟨fun hi => absurd rfl (hi a b), fun a' b' ea' hi ha' x hx => ?_⟩
    obtain ⟨rfl, rfl⟩ := Instr.wmem.inj hi
    obtain rfl : ea = ea' := Option.some.inj (ha.symm.trans ha')
    rw [hm, Memory.read_write_ne _ hx]

/-- Settles O44: a decode fault leaves memory alone, and a `wmem` writes a number. -/
theorem programsWriteOnlyNumbers : Obligations.ProgramsWriteOnlyNumbers := by
  intro s t a hwf h hne
  obtain ⟨-, ⟨r, -, rfl⟩ | ⟨i, -, hx⟩⟩ := step_cases h
  · exact absurd rfl hne
  · rcases exec_mem_cases hx with hm | ⟨_, _, ea, v, -, -, hm⟩
    · exact absurd (hm ▸ rfl) hne
    · rw [hm, Memory.read_write hwf] at hne ⊢
      by_cases ha : a = ea.toNat
      · rw [if_pos ha, numCell_toNat]
        omega
      · exact absurd (if_neg ha) hne

/-- Settles O35: the four effects that reach the stack, each at its top. -/
theorem stackChangesOnlyAtTheTop : Obligations.StackChangesOnlyAtTheTop := by
  intro i s t h
  cases exec_cases h with
  | push v hi _ => exact .inr (.inl ⟨⟨.inl hi, v, rfl⟩, rfl⟩)
  | call v _ hi _ => exact .inr (.inl ⟨⟨.inr hi, v, rfl⟩, rfl⟩)
  | pop d v hi hs => exact .inr (.inr ⟨.inl ⟨d, hi⟩, v, State.stack_of_top hs⟩)
  | ret v hi hs => exact .inr (.inr ⟨.inr hi, v, State.stack_of_top hs⟩)
  | _ => exact .inl rfl

/-- Settles O36: the `emit` and the `input` effect are the only ones on the ports. -/
theorem onlyOutEmitsAndOnlyInConsumes : Obligations.OnlyOutEmitsAndOnlyInConsumes := by
  intro i s t h
  cases exec_cases h with
  | emit a v hi ha => exact ⟨.inr ⟨a, v, hi, ha, rfl⟩, .inl rfl, rfl, rfl⟩
  | input d v hi _ => exact ⟨.inl rfl, .inr ⟨⟨d, hi⟩, rfl⟩, rfl, rfl⟩
  | _ => exact ⟨.inl rfl, .inl rfl, rfl, rfl⟩

/-- The loaded image, zeros after it (R57). -/
theorem Memory.read_ofImage (image : List Cell) (a : Nat) :
    (Memory.ofImage image).read a = if a < memCells then (image[a]?).getD 0#16 else 0#16 := by
  rw [Memory.ofImage, Memory.read_writeCells Memory.wf_nil]
  simp [Memory.read, unlisted]

/-- Settles O51: the reset values by `rfl`, the cells by what the loader's writes read back as. -/
theorem resetLeavesTheStatedValues : Obligations.ResetLeavesTheStatedValues := by
  intro cfg host image hlen
  refine ⟨State.reg_boot cfg host _, rfl, rfl, rfl, rfl, rfl, rfl, rfl, rfl, fun a ha => ?_, fun a ha => ?_⟩
  · have hmem : a < memCells := Nat.lt_of_lt_of_le ha hlen
    rw [State.boot_mem, Memory.read_ofImage, if_pos hmem, List.getElem?_eq_getElem ha, Option.getD_some]
  · rw [State.boot_mem, Memory.read_ofImage, List.getElem?_eq_none ha, Option.getD_none, ite_self]

end Sys2Proof.Machine
end

section
/-! The halt flag and the fault record (R30, R32): which instructions write them, and that none reads them. -/

namespace Sys2Proof.Machine

/-- All an instruction can do to the halt flag and the fault code. -/
theorem exec_halted_cases {i : Instr} {s t : State} (h : exec i s = .next t) :
    (t.halted = s.halted ∧ t.faultCause = s.faultCause) ∨
    ((i = .halt ∨ i = .ret ∧ s.stack = []) ∧ t.halted = true ∧ t.faultCause = s.faultCause) ∨
    (t.halted = true ∧ t.faultCause ≠ 0#8) := by
  cases exec_cases h with
  | raise c x _ _ => exact .inr (.inr ⟨rfl, c.code_ne_zero⟩)
  | halt hi => exact .inr (.inl ⟨hi, rfl, rfl⟩)
  | _ => exact .inl ⟨rfl, rfl⟩

/-- The state with another halt flag and another fault record. -/
def State.withStatus (s : State) (h : Bool) (c : BitVec 8) (p : Pc) (x : Cell) : State :=
  { s with halted := h, faultCause := c, faultPc := p, faultInfo := x }

section
variable (s : State) (h : Bool) (c : BitVec 8) (p : Pc) (x : Cell)

@[simp] theorem State.value_withStatus (y : Operand) : (s.withStatus h c p x).value y = s.value y :=
  State.value_congr rfl y
@[simp] theorem State.top_withStatus : (s.withStatus h c p x).top = s.top := rfl
@[simp] theorem State.stackFull_withStatus : (s.withStatus h c p x).stackFull = s.stackFull := rfl
@[simp] theorem State.outAnswer_withStatus : (s.withStatus h c p x).outAnswer = s.outAnswer := rfl
@[simp] theorem State.inAnswer_withStatus : (s.withStatus h c p x).inAnswer = s.inAnswer := rfl
@[simp] theorem State.mem_withStatus : (s.withStatus h c p x).mem = s.mem := rfl
@[simp] theorem State.pc_withStatus : (s.withStatus h c p x).pc = s.pc := rfl

/-- How a result `t` from `s` and a result `t'` from `s.withStatus h c p x` correspond when no instruction reads the status:
both raised the same fault, or each carries its own fault record on and the flags were not told apart. -/
inductive StatusCarried : State → State → Prop where
  | raised (t : State) : StatusCarried t t
  | carried (t : State) (g : Bool) (hrec : t.withStatus t.halted s.faultCause s.faultPc s.faultInfo = t)
      (hg : h = s.halted → g = t.halted) : StatusCarried t (t.withStatus g c p x)

variable {s h c p x}

theorem StatusCarried.withValue {n : Nat} (y : Operand) {k k' : Number → State}
    (hk : ∀ v, StatusCarried s h c p x (k v) (k' v)) :
    StatusCarried s h c p x ((s.consume n).withValue s.pc y k)
      (((s.withStatus h c p x).consume n).withValue (s.withStatus h c p x).pc y k') := by
  have hv : ((s.withStatus h c p x).consume n).value y = (s.consume n).value y := by simp
  rw [State.withValue_eq, State.withValue_eq, hv]
  cases (s.consume n).value y with
  | some v => exact hk v
  | none => exact .raised _

/-- No instruction reads the halt flag or the fault record. -/
theorem exec_statusCarried (i : Instr) {t t' : State} (ht : exec i s = .next t)
    (ht' : exec i (s.withStatus h c p x) = .next t') : StatusCarried s h c p x t t' := by
  have unary (f : Number → Number) (d : Reg) (b : Operand) :
      StatusCarried s h c p x (s.unary f d b) ((s.withStatus h c p x).unary f d b) :=
    .withValue b fun _ => .carried _ h rfl id
  have binary (f : Number → Number → Number) (d : Reg) (b b' : Operand) :
      StatusCarried s h c p x (s.binary f d b b') ((s.withStatus h c p x).binary f d b b') :=
    .withValue b fun _ => .withValue b' fun _ => .carried _ h rfl id
  cases i with
  | halt => cases ht; cases ht'; exact .carried _ true rfl fun _ => rfl
  | noop => cases ht; cases ht'; exact .carried _ h rfl id
  | set d b => cases ht; cases ht'; exact unary _ d b
  | not d b => cases ht; cases ht'; exact unary _ d b
  | eq d b b' => cases ht; cases ht'; exact binary _ d b b'
  | gt d b b' => cases ht; cases ht'; exact binary _ d b b'
  | add d b b' => cases ht; cases ht'; exact binary _ d b b'
  | mult d b b' => cases ht; cases ht'; exact binary _ d b b'
  | and d b b' => cases ht; cases ht'; exact binary _ d b b'
  | or d b b' => cases ht; cases ht'; exact binary _ d b b'
  | mod d b b' =>
    cases ht; cases ht'
    refine .withValue b fun _ => .withValue b' fun _ => ?_
    split
    · exact .raised _
    · exact .carried _ h rfl id
  | push a =>
    cases ht; cases ht'
    refine .withValue a fun _ => ?_
    rw [State.stackFull_withStatus]
    split
    · exact .raised _
    · exact .carried _ h rfl id
  | pop d =>
    cases ht; cases ht'
    rw [State.top_withStatus]
    cases s.top with
    | none => exact .raised _
    | some _ => exact .carried _ h rfl id
  | jmp a => cases ht; cases ht'; exact .withValue a fun _ => .carried _ h rfl id
  | jt a b =>
    cases ht; cases ht'
    refine .withValue a fun _ => ?_
    split
    · exact .withValue b fun _ => .carried _ h rfl id
    · exact .carried _ h rfl id
  | jf a b =>
    cases ht; cases ht'
    refine .withValue a fun _ => ?_
    split
    · exact .carried _ h rfl id
    · exact .withValue b fun _ => .carried _ h rfl id
  | call a =>
    cases ht; cases ht'
    refine .withValue a fun _ => ?_
    rw [State.stackFull_withStatus, State.consume_pc, State.consume_pc, State.pc_withStatus]
    split
    · exact .raised _
    · split
      · exact .raised _
      · exact .carried _ h rfl id
  | ret =>
    cases ht; cases ht'
    rw [State.top_withStatus]
    cases s.top with
    | none => exact .carried _ true rfl fun _ => rfl
    | some _ => exact .carried _ h rfl id
  | rmem d b =>
    cases ht; cases ht'
    refine .withValue b fun _ => ?_
    rw [State.mem_withStatus]
    split
    · exact .raised _
    · split
      · exact .raised _
      · exact .carried _ h rfl id
  | wmem a b =>
    cases ht; cases ht'
    refine .withValue a fun _ => .withValue b fun _ => ?_
    split
    · exact .raised _
    · exact .carried _ h rfl id
  | out a =>
    cases ht; cases ht'
    refine .withValue a fun _ => ?_
    rw [State.outAnswer_withStatus]
    cases s.outAnswer with
    | ok => exact .carried _ h rfl id
    | failed => exact .raised _
  | inp d =>
    cases ht; cases ht'
    rw [State.inAnswer_withStatus]
    cases s.inAnswer with
    | none => exact .carried _ h rfl id
    | some ans =>
      cases ans with
      | value _ => exact .carried _ h rfl id
      | eof => exact .raised _
      | failed => exact .raised _

end

/-- With another halt flag an instruction gives the same state but for the flag (R30). -/
theorem exec_withHalted {i : Instr} {s t : State} (h : Bool) (ht : exec i s = .next t) :
    ∃ t', exec i { s with halted := h } = .next t' ∧ { t' with halted := t.halted } = t := by
  obtain ⟨t', ht'⟩ := exec_next i { s with halted := h }
  refine ⟨t', ht', ?_⟩
  have hc : StatusCarried s h s.faultCause s.faultPc s.faultInfo t t' := exec_statusCarried i ht ht'
  cases hc with
  | raised => rfl
  | carried g hrec _ => exact hrec

/-- Settles O50: the flag is the same before, so it is the same after. -/
theorem noInstructionReadsTheFaultRecord : Obligations.NoInstructionReadsTheFaultRecord := by
  intro i s t c p x ht
  obtain ⟨t', ht'⟩ := exec_next i { s with faultCause := c, faultPc := p, faultInfo := x }
  refine ⟨t', ht', ?_⟩
  have hc : StatusCarried s s.halted c p x t t' := exec_statusCarried i ht ht'
  cases hc with
  | raised => rfl
  | carried g _ hg =>
    obtain rfl := hg rfl
    rfl

/-- Settles O10: the clauses that set the flag by `exec_halted_cases` and the decode fault, the last by
`exec_withHalted`. -/
theorem haltFlagIsSetByHaltRetAndFaultsOnly : Obligations.HaltFlagIsSetByHaltRetAndFaultsOnly := by
  refine ⟨fun _ _ _ => rfl, fun s hs => by simp [step, hs], ?_, ?_, ?_, ?_, ?_, fun i s t h => exec_withHalted h⟩
  · intro s t h
    cases h
    rfl
  · intro s t hs h
    have htop : s.top = none := State.top_eq_none_iff.2 hs
    simp only [exec, execRet, htop] at h
    cases h
    rfl
  · intro s t h hs ht
    obtain ⟨-, ⟨r, -, rfl⟩ | ⟨i, -, hx⟩⟩ := step_cases h
    · rfl
    · rcases exec_halted_cases hx with ⟨-, hc⟩ | ⟨-, hh, -⟩ | ⟨hh, -⟩
      · exact absurd (hc.trans hs) ht
      · exact hh
      · exact hh
  · intro s t h ht
    obtain ⟨hs, ⟨r, -, rfl⟩ | ⟨i, hi, hx⟩⟩ := step_cases h
    · exact .inr (.inr (decodeCause r.why).code_ne_zero)
    · rcases exec_halted_cases hx with ⟨hh, -⟩ | ⟨rfl | ⟨rfl, hst⟩, -, -⟩ | ⟨-, hc⟩
      · rw [hh, hs] at ht
        cases ht
      · exact .inl hi
      · exact .inr (.inl ⟨hi, hst⟩)
      · exact .inr (.inr hc)
  · intro i s t h hs
    rcases exec_halted_cases h with ⟨hh, -⟩ | ⟨-, hh, -⟩ | ⟨hh, -⟩
    · exact hh.trans hs
    · exact hh
    · exact hh

end Sys2Proof.Machine
end

section
/-! The pc after each instruction (R25) and the stack's Push and Pop (R28). -/

namespace Sys2Proof

/-- Neither an explicit control transfer of R25 nor `in`, which can hold. -/
def Instr.alwaysAdvances : Instr → Bool
  | .jmp _ | .jt _ _ | .jf _ _ | .call _ | .ret | .inp _ => false
  | _ => true

namespace Machine

/-! ### The control transfers and the stack instructions, once their operands are read -/

section
variable {s : State} {a b : Operand} {v w : Number}

theorem exec_jmp_of_value (ha : s.value a = some v) : exec (.jmp a) s = .next ((s.consume 2).jump v) := by
  simp [exec, execJmp, State.withValue, ha]

theorem exec_jt_of_values (ha : s.value a = some v) (hb : s.value b = some w) :
    exec (.jt a b) s = .next (if v ≠ 0#15 then (s.consume 3).jump w else s.consume 3) := by
  simp [exec, execJt, State.withValue, isTrue, ha, hb]

theorem exec_jf_of_values (ha : s.value a = some v) (hb : s.value b = some w) :
    exec (.jf a b) s = .next (if v = 0#15 then (s.consume 3).jump w else s.consume 3) := by
  by_cases hv : v = 0#15 <;> simp [exec, execJf, State.withValue, isTrue, ha, hb, hv]

theorem exec_call_of_value (ha : s.value a = some v) :
    exec (.call a) s = .next (
      if memCells ≤ (s.consume 2).pc.toNat then (s.consume 2).raise s.pc .linkAddressRange overrun
      else if s.stackFull then (s.consume 2).raise s.pc .stackOverflow 0#16
      else ((s.consume 2).pushed ((s.consume 2).pc.setWidth 15)).jump v) := by
  simp [exec, execCall, State.withValue, ha]

theorem exec_push_of_value (ha : s.value a = some v) (hf : s.cfg.stackDepth ≠ some s.stack.length) :
    exec (.push a) s = .next ((s.consume 2).pushed v) := by
  have hfull : s.stackFull = false := Bool.eq_false_iff.2 fun h => hf (State.stackFull_iff.1 h)
  simp [exec, execPush, State.withValue, ha, hfull]

theorem exec_ret_of_empty (hs : s.stack = []) : exec .ret s = .next (s.consume 1).stop := by
  simp [exec, execRet, State.top_eq_none_iff.2 hs]

theorem exec_ret_of_append {st : List Number} {r : Number} (hs : s.stack = st ++ [r]) :
    exec .ret s = .next ((s.consume 1).popped.jump r) := by
  simp [exec, execRet, State.top_of_append hs]

theorem exec_pop_of_empty (d : Reg) (hs : s.stack = []) :
    exec (.pop d) s = .next ((s.consume 2).raise s.pc .stackUnderflow 0#16) := by
  simp [exec, execPop, State.top_eq_none_iff.2 hs]

theorem exec_pop_of_append (d : Reg) {st : List Number} {r : Number} (hs : s.stack = st ++ [r]) :
    exec (.pop d) s = .next ((s.consume 2).popped.setReg d r) := by
  simp [exec, execPop, State.top_of_append hs]

end

/-! ### Linear control flow: PC++ (R25) -/

theorem State.withValue_pc {s : State} {ipc p : Pc} (x : Operand) {k : Number → State} (hs : s.pc = p)
    (hk : ∀ v, (k v).pc = p) : (s.withValue ipc x k).pc = p := by
  rcases State.withValue_cases (s := s) ipc x k with ⟨v, -, h⟩ | ⟨-, h⟩
  · rw [h, hk]
  · rw [h, State.raise_pc, hs]

theorem State.unary_pc (s : State) (f : Number → Number) (d : Reg) (b : Operand) :
    (s.unary f d b).pc = s.pc + 3#16 :=
  State.withValue_pc b rfl fun _ => rfl

theorem State.binary_pc (s : State) (f : Number → Number → Number) (d : Reg) (b c : Operand) :
    (s.binary f d b c).pc = s.pc + 4#16 :=
  State.withValue_pc b rfl fun _ => State.withValue_pc c rfl fun _ => rfl

/-- PC++ (R25), also when the instruction raises a fault. -/
theorem exec_pc_of_alwaysAdvances {i : Instr} {s t : State} {n : Nat} (h : exec i s = .next t)
    (hi : i.alwaysAdvances = true) (hn : i.length = n) : t.pc = s.pc + BitVec.ofNat 16 n := by
  subst hn
  cases i with
  | halt => cases h; rfl
  | noop => cases h; rfl
  | set d b => cases h; exact s.unary_pc _ d b
  | not d b => cases h; exact s.unary_pc _ d b
  | eq d b c => cases h; exact s.binary_pc _ d b c
  | gt d b c => cases h; exact s.binary_pc _ d b c
  | add d b c => cases h; exact s.binary_pc _ d b c
  | mult d b c => cases h; exact s.binary_pc _ d b c
  | and d b c => cases h; exact s.binary_pc _ d b c
  | or d b c => cases h; exact s.binary_pc _ d b c
  | mod d b c =>
    cases h
    refine State.withValue_pc b rfl fun _ => State.withValue_pc c rfl fun _ => ?_
    split <;> rfl
  | push a =>
    cases h
    refine State.withValue_pc a rfl fun _ => ?_
    split <;> rfl
  | pop d =>
    cases h
    split <;> rfl
  | rmem d b =>
    cases h
    refine State.withValue_pc b rfl fun _ => ?_
    split
    · rfl
    · split <;> rfl
  | wmem a b =>
    cases h
    refine State.withValue_pc a rfl fun _ => State.withValue_pc b rfl fun _ => ?_
    split <;> rfl
  | out a =>
    cases h
    refine State.withValue_pc a rfl fun _ => ?_
    split <;> rfl
  | jmp _ => cases hi
  | jt _ _ => cases hi
  | jf _ _ => cases hi
  | call _ => cases hi
  | ret => cases hi
  | inp _ => cases hi

/-- An answered `in` advances too, whatever the answer (R181). -/
theorem exec_inp_pc {s t : State} {d : Reg} (h : exec (.inp d) s = .next t) (hw : s.inAnswer ≠ none) :
    t.pc = s.pc + 2#16 := by
  cases h
  split
  · exact absurd ‹_› hw
  · rfl
  · rfl
  · rfl

/-- A call that raises no fault goes to its target and pushes the pc after its two cells (R143). -/
theorem exec_call_pc {s t : State} {a : Operand} {v : Number} (ha : s.value a = some v) (ht : t.faultCause = 0#8)
    (h : exec (.call a) s = .next t) :
    t.pc = numCell v ∧ ∃ r : Number, t.stack = s.stack ++ [r] ∧ numCell r = s.pc + 2#16 := by
  rw [exec_call_of_value ha] at h
  injection h with h
  subst h
  split at ht
  · exact absurd ht (Cause.code_ne_zero .linkAddressRange)
  · next hlt =>
    split at ht
    · exact absurd ht (Cause.code_ne_zero .stackOverflow)
    · next hfull =>
      rw [if_neg hlt, if_neg hfull]
      refine ⟨rfl, _, rfl, BitVec.eq_of_toNat_eq ?_⟩
      have hpc : (s.pc + 2#16).toNat < 32768 := Nat.lt_of_not_le hlt
      rw [numCell_toNat, State.consume_pc, BitVec.toNat_setWidth]
      exact Nat.mod_eq_of_lt hpc

/-- Settles O11: the linear instructions by `exec_pc_of_alwaysAdvances`, each transfer by its own equation. -/
theorem pcAfterEachInstruction : Obligations.PcAfterEachInstruction := by
  intro s t _ ht
  refine ⟨fun h => ⟨exec_pc_of_alwaysAdvances h rfl rfl, ?_⟩, fun h => exec_pc_of_alwaysAdvances h rfl rfl, ?_,
    fun _ _ h => exec_pc_of_alwaysAdvances h rfl rfl, ?_, fun _ h => exec_pc_of_alwaysAdvances h rfl rfl,
    fun _ h hw => exec_inp_pc h hw, ?_, ?_, ?_, ?_, fun a v ha h => exec_call_pc ha ht h, ?_⟩
  · cases h
    rfl
  · rintro d b (h | h | h) <;> exact exec_pc_of_alwaysAdvances h rfl rfl
  · rintro a (h | h) <;> exact exec_pc_of_alwaysAdvances h rfl rfl
  · rintro d b c (h | h | h | h | h | h | h) <;> exact exec_pc_of_alwaysAdvances h rfl rfl
  · intro a v ha h
    rw [exec_jmp_of_value ha] at h
    cases h
    rfl
  · intro a b v w ha hb h
    rw [exec_jt_of_values ha hb] at h
    cases h
    split <;> rfl
  · intro a b v w ha hb h
    rw [exec_jf_of_values ha hb] at h
    cases h
    split <;> rfl
  · refine fun h => ⟨fun hs => ?_, fun st r hs => ?_⟩
    · rw [exec_ret_of_empty hs] at h
      cases h
      exact ⟨rfl, rfl⟩
    · rw [exec_ret_of_append hs] at h
      cases h
      rfl

/-! ### Push and Pop (R28) -/

theorem State.popped_pushed (s : State) (v : Number) : (s.pushed v).popped = s := by
  simp [State.popped, State.pushed]

theorem State.popped_of_empty {s : State} (hs : s.stack = []) : s.popped = s := by
  cases s
  cases hs
  rfl

/-- Settles O47: the operations by their list lemmas, the instructions by the equations above. -/
theorem stackIsLastInFirstOut : Obligations.StackIsLastInFirstOut := by
  refine ⟨fun s v => ⟨rfl, State.top_of_append rfl, s.popped_pushed v⟩, fun s hs => ?_, fun s st r hs => ?_,
    fun s t a v d ha hf h => ?_⟩
  · exact ⟨State.top_eq_none_iff.2 hs, State.popped_of_empty hs, ⟨_, exec_ret_of_empty hs, rfl, rfl, hs⟩,
      fun d => ⟨_, exec_pop_of_empty d hs, rfl, hs⟩⟩
  · exact ⟨State.top_of_append hs, by simp [hs]⟩
  · rw [exec_push_of_value ha hf] at h
    cases h
    exact ⟨_, exec_pop_of_append d rfl, by simp, by simp [State.reg_setReg]⟩

end Machine
end Sys2Proof
end

section
/-! Memory (20_memory.md): a store is what the next load and the next fetch see (R52, R62), only the port instructions
ask the host (R56), and the loader's reading of the image (R54, R66). -/

namespace Sys2Proof.Machine

/-! ### A store, and who reads it (R52, R62) -/

section
variable {s : State} {a b : Operand} {ea v : Number}

/-- No address of a `wmem` is out of range (R210), so readable operands make a store. -/
theorem exec_wmem_of_values (ha : s.value a = some ea) (hb : s.value b = some v) :
    exec (.wmem a b) s = .next ((s.consume 3).stored ea.toNat v) := by
  have hea : ¬ memCells ≤ ea.toNat := Nat.not_le.2 ea.isLt
  simp [exec, execWmem, State.withValue, ha, hb, hea]

theorem exec_rmem_of_numCell (d : Reg) (hb : s.value b = some ea) (hv : s.mem.read ea.toNat = numCell v) :
    exec (.rmem d b) s = .next ((s.consume 3).setReg d v) := by
  have hea : ¬ memCells ≤ ea.toNat := Nat.not_le.2 ea.isLt
  have hnum : ¬ memCells ≤ v.toNat := Nat.not_le.2 v.isLt
  have hback : (numCell v).setWidth 15 = v := BitVec.eq_of_toNat_eq (by simpa using v.isLt)
  simp [exec, execRmem, State.withValue, hb, hv, hea, hnum, hback]

theorem State.read_stored_same (h : s.mem.wf = true) (ea : Nat) (v : Number) :
    (s.stored ea v).mem.read ea = numCell v := by
  rw [State.stored_mem, Memory.read_write h, if_pos rfl]

end

/-- Settles O45: the load's cell holds the stored number, so the load writes that number and raises nothing. -/
theorem storeThenLoadGivesTheValue : Obligations.StoreThenLoadGivesTheValue := by
  intro s t a b a' ea v d hwf ha hb ha' h
  rw [exec_wmem_of_values ha hb] at h
  cases h
  exact ⟨_, exec_rmem_of_numCell d ha' (State.read_stored_same hwf _ v), by simp [State.reg_setReg], rfl, rfl⟩

/-- Settles O46: the window shows the cell at `ea` as memory reads it, and `ea` exists. -/
theorem storeIsSeenByTheNextFetch : Obligations.StoreIsSeenByTheNextFetch := by
  intro s t a b ea v k hwf ha hb h hk hpc
  rw [exec_wmem_of_values ha hb] at h
  cases h
  rw [State.window_getElem?, hpc, if_pos ⟨hk, ea.isLt⟩, State.read_stored_same (s := s.consume 3) hwf]

/-! ### Independence of the host (R56, R226) -/

/-- The state with another host script. -/
def State.withHost (s : State) (h : HostScript) : State := { s with host := h }

section
variable {s : State} {h : HostScript}

@[simp] theorem State.value_withHost (x : Operand) : (s.withHost h).value x = s.value x := State.value_congr rfl x
@[simp] theorem State.top_withHost : (s.withHost h).top = s.top := rfl
@[simp] theorem State.stackFull_withHost : (s.withHost h).stackFull = s.stackFull := rfl
@[simp] theorem State.mem_withHost : (s.withHost h).mem = s.mem := rfl
@[simp] theorem State.pc_withHost : (s.withHost h).pc = s.pc := rfl

theorem State.withValue_withHost {n : Nat} (x : Operand) {k k' : Number → State}
    (hk : ∀ v, k' v = (k v).withHost h) :
    ((s.withHost h).consume n).withValue (s.withHost h).pc x k' =
      ((s.consume n).withValue s.pc x k).withHost h := by
  rw [State.withValue_eq, State.withValue_eq, State.value_consume, State.value_consume, State.value_withHost]
  cases s.value x with
  | some v => exact hk v
  | none => rfl

theorem State.unary_withHost (f : Number → Number) (d : Reg) (b : Operand) :
    (s.withHost h).unary f d b = (s.unary f d b).withHost h :=
  State.withValue_withHost b fun _ => rfl

theorem State.binary_withHost (f : Number → Number → Number) (d : Reg) (b c : Operand) :
    (s.withHost h).binary f d b c = (s.binary f d b c).withHost h :=
  State.withValue_withHost b fun _ => State.withValue_withHost c fun _ => rfl

/-- Every instruction but `out` and `in` does the same with another script, and carries that script on. -/
theorem exec_withHost {i : Instr} {t t' : State} (ho : ∀ a, i ≠ .out a) (hi : ∀ d, i ≠ .inp d)
    (ht : exec i s = .next t) (ht' : exec i (s.withHost h) = .next t') : t' = t.withHost h := by
  cases i with
  | halt => cases ht; cases ht'; rfl
  | noop => cases ht; cases ht'; rfl
  | set d b => cases ht; cases ht'; exact State.unary_withHost _ d b
  | not d b => cases ht; cases ht'; exact State.unary_withHost _ d b
  | eq d b c => cases ht; cases ht'; exact State.binary_withHost _ d b c
  | gt d b c => cases ht; cases ht'; exact State.binary_withHost _ d b c
  | add d b c => cases ht; cases ht'; exact State.binary_withHost _ d b c
  | mult d b c => cases ht; cases ht'; exact State.binary_withHost _ d b c
  | and d b c => cases ht; cases ht'; exact State.binary_withHost _ d b c
  | or d b c => cases ht; cases ht'; exact State.binary_withHost _ d b c
  | mod d b c =>
    cases ht; cases ht'
    refine State.withValue_withHost b fun _ => State.withValue_withHost c fun _ => ?_
    split <;> rfl
  | push a =>
    cases ht; cases ht'
    refine State.withValue_withHost a fun _ => ?_
    rw [State.stackFull_withHost]
    split <;> rfl
  | pop d =>
    cases ht; cases ht'
    rw [State.top_withHost]
    cases s.top <;> rfl
  | jmp a => cases ht; cases ht'; exact State.withValue_withHost a fun _ => rfl
  | jt a b =>
    cases ht; cases ht'
    refine State.withValue_withHost a fun _ => ?_
    split
    · exact State.withValue_withHost b fun _ => rfl
    · rfl
  | jf a b =>
    cases ht; cases ht'
    refine State.withValue_withHost a fun _ => ?_
    split
    · rfl
    · exact State.withValue_withHost b fun _ => rfl
  | call a =>
    cases ht; cases ht'
    refine State.withValue_withHost a fun _ => ?_
    rw [State.stackFull_withHost, State.consume_pc, State.consume_pc, State.pc_withHost]
    split
    · rfl
    · split <;> rfl
  | ret =>
    cases ht; cases ht'
    rw [State.top_withHost]
    cases s.top <;> rfl
  | rmem d b =>
    cases ht; cases ht'
    refine State.withValue_withHost b fun _ => ?_
    rw [State.mem_withHost]
    split
    · rfl
    · split <;> rfl
  | wmem a b =>
    cases ht; cases ht'
    refine State.withValue_withHost a fun _ => State.withValue_withHost b fun _ => ?_
    split <;> rfl
  | out a => exact absurd rfl (ho a)
  | inp d => exact absurd rfl (hi d)

end

/-- Settles O49: every instruction answers a next state, and `exec_withHost` carries it over. -/
theorem onlyPortInstructionsDependOnTheHost : Obligations.OnlyPortInstructionsDependOnTheHost := by
  intro i s h ho hi
  obtain ⟨t, ht⟩ := exec_next i s
  obtain ⟨t', ht'⟩ := exec_next i (s.withHost h)
  obtain rfl := exec_withHost ho hi ht ht'
  exact ⟨t, ht, ht'⟩

/-! ### The image file (R54, R66) -/

theorem two_mul_length_imageCells {bytes : List Byte} (h : bytes.length % 2 = 0) :
    2 * (imageCells bytes).length = bytes.length := by
  induction bytes using imageCells.induct with
  | case1 lo hi rest ih =>
    simp only [imageCells, List.length_cons] at h ⊢
    have := ih (by omega)
    omega
  | case2 => cases h
  | case3 => rfl

/-- Cell `k` is made of bytes `2k` and `2k + 1`, the low one first (R54). -/
theorem imageCells_getElem? {bytes : List Byte} {k : Nat} {lo hi : Byte} (hlo : bytes[2 * k]? = some lo)
    (hhi : bytes[2 * k + 1]? = some hi) :
    (imageCells bytes)[k]? = some (BitVec.ofNat 16 (lo.toNat + 256 * hi.toNat)) := by
  induction bytes using imageCells.induct generalizing k with
  | case1 b c rest ih =>
    cases k with
    | zero =>
      cases hlo
      cases hhi
      rfl
    | succ k => exact ih hlo hhi
  | case2 => cases hhi
  | case3 => cases hlo

/-- Two bytes fill a cell exactly: nothing is cut off. -/
theorem toNat_cell_of_bytes (lo hi : Byte) :
    (BitVec.ofNat 16 (lo.toNat + 256 * hi.toNat)).toNat = lo.toNat + 256 * hi.toNat := by
  have := lo.isLt
  have := hi.isLt
  rw [BitVec.toNat_ofNat]
  omega

/-- Settles O53: the loader's three ways, the cells of the last by `imageCells_getElem?`. -/
theorem imageBytesBecomeCells : Obligations.ImageBytesBecomeCells := by
  intro bytes
  refine ⟨fun hodd => ?_, fun heven hlong => ?_, fun heven hlen => ⟨imageCells bytes, ?_, ?_, ?_⟩⟩
  · rw [loadImage, if_pos hodd]
  · rw [loadImage, if_neg (by omega), if_pos hlong]
  · rw [loadImage, if_neg (by omega), if_neg (by omega)]
  · exact two_mul_length_imageCells heven
  · exact fun k lo hi hlo hhi => ⟨_, imageCells_getElem? hlo hhi, toNat_cell_of_bytes lo hi⟩

end Sys2Proof.Machine
end

section
/-! The encoding (30_encoding.md). The opcode map (R83) is walked through once in each direction: `opcodeRow` gives an
opcode's row, `decode_encode_append` an instruction's cells. What the decoder accepts, and that the fetch sequence agrees
with it, are then case splits over the six formats. -/

namespace Sys2Proof

open Machine (Format formatOf instrOf fetchOperands)

/-! ### The opcode map, row by row (R81, R83) -/

/-- A row of the opcode map: the opcode cell, its format and what the decoder does with the cells. The row's instructions are
encoded with that opcode, are well formed when their sources are, and are what the fetch sequence assembles. -/
inductive OpcodeRow (op : Cell) : Format → (List Cell → Except Reject Instr) → Prop where
  | f0 (i : Instr) (henc : encode i = [op] := by rfl) (hwf : i.wf = true := by rfl)
      (hseq : instrOf op.toNat (none, []) = some i := by rfl) : OpcodeRow op .f0 fun _ => .ok i
  | fs (mk : Operand → Instr) (henc : ∀ a, encode (mk a) = [op, a.cell] := by intros; rfl)
      (hwf : ∀ a, (mk a).wf = a.wf := by intros; rfl)
      (hseq : ∀ a, instrOf op.toNat (none, [a]) = some (mk a) := by intros; rfl) : OpcodeRow op .fs (decodeFS mk)
  | fd (mk : Reg → Instr) (henc : ∀ d, encode (mk d) = [op, regCell d] := by intros; rfl)
      (hwf : ∀ d, (mk d).wf = true := by intros; rfl)
      (hseq : ∀ d, instrOf op.toNat (some d, []) = some (mk d) := by intros; rfl) : OpcodeRow op .fd (decodeFD mk)
  | fds (mk : Reg → Operand → Instr) (henc : ∀ d b, encode (mk d b) = [op, regCell d, b.cell] := by intros; rfl)
      (hwf : ∀ d b, (mk d b).wf = b.wf := by intros; rfl)
      (hseq : ∀ d b, instrOf op.toNat (some d, [b]) = some (mk d b) := by intros; rfl) :
      OpcodeRow op .fds (decodeFDS mk)
  | fss (mk : Operand → Operand → Instr) (henc : ∀ a b, encode (mk a b) = [op, a.cell, b.cell] := by intros; rfl)
      (hwf : ∀ a b, (mk a b).wf = (a.wf && b.wf) := by intros; rfl)
      (hseq : ∀ a b, instrOf op.toNat (none, [a, b]) = some (mk a b) := by intros; rfl) :
      OpcodeRow op .fss (decodeFSS mk)
  | fdss (mk : Reg → Operand → Operand → Instr)
      (henc : ∀ d b c, encode (mk d b c) = [op, regCell d, b.cell, c.cell] := by intros; rfl)
      (hwf : ∀ d b c, (mk d b c).wf = (b.wf && c.wf) := by intros; rfl)
      (hseq : ∀ d b c, instrOf op.toNat (some d, [b, c]) = some (mk d b c) := by intros; rfl) :
      OpcodeRow op .fdss (decodeFDSS mk)

/-- Each opcode of 0 .. 21 has its row. -/
theorem opcodeRow {op : Cell} (h : op.toNat ≤ 21) : OpcodeRow op (formatOf op.toNat) (decodeOp op) := by
  obtain ⟨n, hn, rfl⟩ : ∃ n, n ≤ 21 ∧ op = BitVec.ofNat 16 n := ⟨op.toNat, h, by simp⟩
  interval_cases n
  · exact .f0 .halt
  · exact .fds .set
  · exact .fs .push
  · exact .fd .pop
  · exact .fdss .eq
  · exact .fdss .gt
  · exact .fs .jmp
  · exact .fss .jt
  · exact .fss .jf
  · exact .fdss .add
  · exact .fdss .mult
  · exact .fdss .mod
  · exact .fdss .and
  · exact .fdss .or
  · exact .fds .not
  · exact .fds .rmem
  · exact .fss .wmem
  · exact .fs .call
  · exact .f0 .ret
  · exact .fs .out
  · exact .fd .inp
  · exact .f0 .noop

/-- Every other value of the whole cell is no opcode (R81). -/
theorem decodeOp_of_illegal {op : Cell} (h : 22 ≤ op.toNat) (cells : List Cell) :
    decodeOp op cells = .error ⟨.illegalOpcode op, 1⟩ := by
  unfold decodeOp
  split
  case h_23 => rfl
  all_goals omega

/-! ### What the decoder accepts (R80, R82) -/

theorem cons_prefix_iff_getElem? {α : Type} {x : α} {l m : List α} :
    x :: l <+: m ↔ m[0]? = some x ∧ l <+: m.tail := by
  cases m <;> simp [eq_comm]

/-- What a row accepts begins with the encoding of a well-formed instruction. -/
theorem OpcodeRow.encodes {op : Cell} {f : Format} {dec : List Cell → Except Reject Instr} (row : OpcodeRow op f dec)
    {rest : List Cell} {i : Instr} (h : dec (op :: rest) = .ok i) : i.wf = true ∧ encode i <+: op :: rest := by
  cases row with
  | f0 j henc hwf _ =>
    cases h
    exact ⟨hwf, by simp [henc]⟩
  | fs mk henc hwf _ =>
    obtain ⟨a, ⟨ha, hwa⟩, rfl⟩ := decodeFS_eq_ok.1 h
    exact ⟨(hwf a).trans hwa, by simpa [henc, cons_prefix_iff_getElem?] using ha⟩
  | fd mk henc hwf _ =>
    obtain ⟨d, hd, rfl⟩ := decodeFD_eq_ok.1 h
    exact ⟨hwf d, by simpa [henc, cons_prefix_iff_getElem?] using hd⟩
  | fds mk henc hwf _ =>
    obtain ⟨d, b, hd, ⟨hb, hwb⟩, rfl⟩ := decodeFDS_eq_ok.1 h
    exact ⟨(hwf d b).trans hwb, by simpa [henc, cons_prefix_iff_getElem?] using And.intro hd hb⟩
  | fss mk henc hwf _ =>
    obtain ⟨a, b, ⟨ha, hwa⟩, ⟨hb, hwb⟩, rfl⟩ := decodeFSS_eq_ok.1 h
    exact ⟨by rw [hwf, hwa, hwb]; rfl, by simpa [henc, cons_prefix_iff_getElem?] using And.intro ha hb⟩
  | fdss mk henc hwf _ =>
    obtain ⟨d, b, c, hd, ⟨hb, hwb⟩, ⟨hc, hwc⟩, rfl⟩ := decodeFDSS_eq_ok.1 h
    exact ⟨by rw [hwf, hwb, hwc]; rfl, by simpa [henc, cons_prefix_iff_getElem?] using And.intro hd (And.intro hb hc)⟩

/-- An operand fetch finds the destination or the well-formed source that was encoded, whatever stands after it. -/
theorem decode_encode_append {i : Instr} (h : i.wf = true) (rest : List Cell) : decode (encode i ++ rest) = .ok i := by
  have fs (op : Cell) (mk : Operand → Instr) {a : Operand} (ha : a.wf = true) :
      decodeFS mk ([op, a.cell] ++ rest) = .ok (mk a) := decodeFS_eq_ok.2 ⟨a, ⟨rfl, ha⟩, rfl⟩
  have fd (op : Cell) (mk : Reg → Instr) (d : Reg) :
      decodeFD mk ([op, regCell d] ++ rest) = .ok (mk d) := decodeFD_eq_ok.2 ⟨d, rfl, rfl⟩
  have fds (op : Cell) (mk : Reg → Operand → Instr) (d : Reg) {b : Operand} (hb : b.wf = true) :
      decodeFDS mk ([op, regCell d, b.cell] ++ rest) = .ok (mk d b) := decodeFDS_eq_ok.2 ⟨d, b, rfl, ⟨rfl, hb⟩, rfl⟩
  have fss (op : Cell) (mk : Operand → Operand → Instr) {a b : Operand} (hab : (a.wf && b.wf) = true) :
      decodeFSS mk ([op, a.cell, b.cell] ++ rest) = .ok (mk a b) := by
    obtain ⟨ha, hb⟩ := Bool.and_eq_true_iff.1 hab
    exact decodeFSS_eq_ok.2 ⟨a, b, ⟨rfl, ha⟩, ⟨rfl, hb⟩, rfl⟩
  have fdss (op : Cell) (mk : Reg → Operand → Operand → Instr) (d : Reg) {b c : Operand}
      (hbc : (b.wf && c.wf) = true) : decodeFDSS mk ([op, regCell d, b.cell, c.cell] ++ rest) = .ok (mk d b c) := by
    obtain ⟨hb, hc⟩ := Bool.and_eq_true_iff.1 hbc
    exact decodeFDSS_eq_ok.2 ⟨d, b, c, rfl, ⟨rfl, hb⟩, ⟨rfl, hc⟩, rfl⟩
  cases i with
  | halt => rfl
  | set d b => exact fds _ .set d h
  | push a => exact fs _ .push h
  | pop d => exact fd _ .pop d
  | eq d b c => exact fdss _ .eq d h
  | gt d b c => exact fdss _ .gt d h
  | jmp a => exact fs _ .jmp h
  | jt a b => exact fss _ .jt h
  | jf a b => exact fss _ .jf h
  | add d b c => exact fdss _ .add d h
  | mult d b c => exact fdss _ .mult d h
  | mod d b c => exact fdss _ .mod d h
  | and d b c => exact fdss _ .and d h
  | or d b c => exact fdss _ .or d h
  | not d b => exact fds _ .not d h
  | rmem d b => exact fds _ .rmem d h
  | wmem a b => exact fss _ .wmem h
  | call a => exact fs _ .call h
  | ret => rfl
  | out a => exact fs _ .out h
  | inp d => exact fd _ .inp d
  | noop => rfl

/-- All the decoder accepts: cells that begin with the encoding of a well-formed instruction. -/
theorem decode_eq_ok_iff {cells : List Cell} {i : Instr} :
    decode cells = .ok i ↔ i.wf = true ∧ encode i <+: cells := by
  constructor
  · intro h
    cases cells with
    | nil => cases h
    | cons op rest =>
      rw [decode_cons] at h
      by_cases hop : op.toNat ≤ 21
      · exact (opcodeRow hop).encodes h
      · rw [decodeOp_of_illegal (by omega)] at h
        cases h
  · rintro ⟨hwf, rest, rfl⟩
    exact decode_encode_append hwf rest

theorem length_encode (i : Instr) : (encode i).length = i.length := by
  cases i <;> rfl

theorem Instr.length_le_four (i : Instr) : i.length ≤ 4 := by
  cases i <;> simp [Instr.length, Instr.kinds]

/-- Settles O1: the operands are read back one by one, and the cells after them are not looked at. -/
theorem decodeOfEncodeIsTheInstruction : Obligations.DecodeOfEncodeIsTheInstruction :=
  fun _ rest h => decode_encode_append h rest

/-- Settles O2: the encoding stands first, as many cells as it has. -/
theorem encodeOfDecodeIsTheCells : Obligations.EncodeOfDecodeIsTheCells := by
  intro cells i h
  obtain ⟨hwf, hpre⟩ := decode_eq_ok_iff.1 h
  exact ⟨hwf, length_encode i ▸ List.prefix_iff_eq_take.1 hpre⟩

/-- Settles O3: the decoder run on each word. -/
theorem specWordsDecode : Obligations.SpecWordsDecode := by
  unfold Obligations.SpecWordsDecode
  decide

/-! ### The opcode is the whole cell (R81) -/

/-- An operand fetch never rejects an opcode. -/
theorem OperandRejects.why_ne_illegalOpcode {cells : List Cell} {r : Reject} (h : OperandRejects cells r) (x : Cell) :
    r.why ≠ .illegalOpcode x := by
  obtain ⟨k, -, -, -, h | h⟩ := h
  · unfold srcAt at h
    split at h
    · cases h; nofun
    · split at h <;> cases h
      nofun
  · unfold dstAt at h
    split at h
    · cases h; nofun
    · split at h <;> cases h <;> nofun

theorem decode_illegalOpcode_iff {op : Cell} {rest : List Cell} :
    decode (op :: rest) = .error ⟨.illegalOpcode op, 1⟩ ↔ 22 ≤ op.toNat := by
  refine ⟨fun h => ?_, fun h => decodeOp_of_illegal h _⟩
  rcases decode_error_cases h with ⟨hnil, -⟩ | ⟨op', rest', hcons, hop, -⟩ | ⟨_, _, -, -, hrej⟩
  · cases hnil
  · cases hcons
    exact hop
  · exact absurd rfl (hrej.why_ne_illegalOpcode op)

/-- A value is at most 21 exactly when its bits from 5 on are zero and its low five bits are at most 21. -/
theorem toNat_le_21_iff_bits (op : Cell) :
    op.toNat ≤ 21 ↔ (∀ k, 5 ≤ k → k < 16 → op.getLsbD k = false) ∧ (op.setWidth 5).toNat ≤ 21 := by
  rw [BitVec.toNat_setWidth]
  constructor
  · intro h
    refine ⟨fun k hk _ => Nat.testBit_lt_two_pow ?_, by omega⟩
    calc op.toNat < 2 ^ 5 := by omega
      _ ≤ 2 ^ k := Nat.pow_le_pow_right (by decide) hk
  · rintro ⟨hhigh, hlow⟩
    have hlt : op.toNat < 2 ^ 5 := by
      refine Nat.lt_pow_two_of_testBit _ fun k hk => ?_
      by_cases hk16 : k < 16
      · exact hhigh k hk hk16
      · exact BitVec.getLsbD_of_ge op k (by omega)
    omega

/-- Every row has a well-formed instruction. -/
theorem OpcodeRow.exists_instr {op : Cell} {f : Format} {dec : List Cell → Except Reject Instr}
    (row : OpcodeRow op f dec) : ∃ (i : Instr) (operands : List Cell), i.wf = true ∧ encode i = op :: operands := by
  cases row with
  | f0 i henc hwf _ => exact ⟨i, _, hwf, henc⟩
  | fs mk henc hwf _ => exact ⟨mk (.number 0), _, hwf _, henc _⟩
  | fd mk henc hwf _ => exact ⟨mk 0, _, hwf _, henc _⟩
  | fds mk henc hwf _ => exact ⟨mk 0 (.number 0), _, hwf _ _, henc _ _⟩
  | fss mk henc hwf _ => exact ⟨mk (.number 0) (.number 0), _, hwf _ _, henc _ _⟩
  | fdss mk henc hwf _ => exact ⟨mk 0 (.number 0) (.number 0), _, hwf _ _ _, henc _ _ _⟩

/-- Settles O4: the rejections by `decode_error_cases`, the bits by `Nat.testBit`, the rest by the opcode's row. -/
theorem opcodeIsTheWholeCell : Obligations.OpcodeIsTheWholeCell := by
  refine fun op rest => ⟨decode_illegalOpcode_iff, toNat_le_21_iff_bits op, fun i h => ?_, fun h => ?_⟩
  · obtain ⟨hwf, hpre⟩ := decode_eq_ok_iff.1 h
    cases henc : encode i with
    | nil =>
      have hlen := length_encode i
      rw [henc, Instr.length, List.length_nil] at hlen
      omega
    | cons op' operands =>
      rw [henc, List.cons_prefix_cons] at hpre
      simp [hpre]
  · obtain ⟨i, operands, hwf, henc⟩ := (opcodeRow h).exists_instr
    exact ⟨i, operands, hwf, decode_eq_ok_iff.2 ⟨hwf, henc ▸ List.prefix_rfl⟩⟩

/-! ### The three classes of an operand cell (R82) -/

theorem wf_classify_iff {x : Cell} : (classify x).wf = true ↔ x.toNat ≤ 32775 := by
  by_cases hnum : x.toNat < 32768
  · exact iff_of_true (by rw [classify_of_number hnum]; rfl) (by omega)
  · by_cases hreg : x.toNat < 32776
    · exact iff_of_true (by rw [classify_of_register (by omega) hreg]; rfl) (by omega)
    · exact iff_of_false (by rw [classify_of_invalid (by omega)]; nofun) (by omega)

theorem regCell_refReg {x : Cell} (h : 32768 ≤ x.toNat) (h' : x.toNat < 32776) : regCell (refReg x) = x := by
  simpa [classify_of_register h h', Operand.cell] using cell_classify x

theorem srcAt_isOk_iff {cells : List Cell} {k : Nat} {x : Cell} (hx : cells[k]? = some x) :
    (∃ o, srcAt cells k = .ok o) ↔ x.toNat ≤ 32775 := by
  constructor
  · rintro ⟨o, ho⟩
    by_contra hle
    rw [srcAt_of_invalid hx (by omega)] at ho
    cases ho
  · intro h
    exact ⟨classify x, srcAt_eq_ok.2 ⟨by rw [hx, cell_classify], wf_classify_iff.2 h⟩⟩

theorem dstAt_isOk_iff {cells : List Cell} {k : Nat} {x : Cell} (hx : cells[k]? = some x) :
    (∃ d, dstAt cells k = .ok d) ↔ 32768 ≤ x.toNat ∧ x.toNat ≤ 32775 := by
  constructor
  · rintro ⟨d, hd⟩
    by_contra hout
    rw [dstAt_of_bad hx (by omega)] at hd
    cases hd
  · rintro ⟨h, h'⟩
    exact ⟨refReg x, dstAt_eq_ok.2 (by rw [hx, regCell_refReg h (by omega)])⟩

theorem getLsbD_15 (x : Cell) : x.getLsbD 15 = decide (32768 ≤ x.toNat) := by
  have := x.isLt
  rw [BitVec.getLsbD, Nat.testBit_eq_decide_div_mod_eq, decide_eq_decide]
  omega

/-- Settles O5: the classes by the classifier's cases, the bit patterns as quotients and remainders of the value. -/
theorem operandCellsHaveThreeClasses : Obligations.OperandCellsHaveThreeClasses := by
  intro x
  have hbits (w : Nat) : (x.extractLsb' 3 w).toNat = x.toNat / 8 % 2 ^ w := by
    rw [BitVec.extractLsb'_toNat, Nat.shiftRight_eq_div_pow]
  have := x.isLt
  refine ⟨fun h => ⟨?_, x.setWidth 15, classify_of_number (by omega), ?_⟩, fun h h' => ⟨?_, refReg x, ?_, ?_, ?_⟩,
    fun h => ⟨?_, fun hz => ?_, classify_of_invalid h⟩, fun cells k hx => ⟨srcAt_isOk_iff hx, dstAt_isOk_iff hx⟩⟩
  · rw [getLsbD_15]
    exact decide_eq_false (by omega)
  · rw [BitVec.toNat_setWidth]
    omega
  · apply BitVec.eq_of_toNat_eq
    rw [hbits]
    simp only [BitVec.toNat_ofNat]
    omega
  · exact classify_of_register h (by omega)
  · rw [refReg_val]
    omega
  · rw [refReg_val, BitVec.extractLsb'_toNat, Nat.shiftRight_zero]
    omega
  · rw [getLsbD_15]
    exact decide_eq_true (by omega)
  · have hquot := hbits 12
    rw [hz, BitVec.toNat_zero] at hquot
    omega

namespace Machine

/-! ### Value (R85) and the step (R89, R90) -/

/-- Settles O6: `value` on each class of R82. -/
theorem valueResolvesASourceCell : Obligations.ValueResolvesASourceCell := by
  refine fun s x => ⟨fun h => ⟨x.setWidth 15, ?_, ?_⟩, fun h h' => ⟨refReg x, ?_, ?_⟩, fun h ipc k => ?_⟩
  · rw [BitVec.toNat_setWidth]
    omega
  · rw [classify_of_number (by omega), State.value_number]
  · rw [refReg_val]
    omega
  · rw [classify_of_register h (by omega), State.value_register]
  · rw [classify_of_invalid h]
    rfl

/-- Cells in memory below 32768 that are the encoding of an instruction begin the window. -/
theorem encode_prefix_window {s : State} {i : Instr} (hfit : s.pc.toNat + i.length ≤ 32768)
    (hcells : ∀ k, k < i.length → (encode i)[k]? = some (s.mem.read (s.pc.toNat + k))) : encode i <+: s.window := by
  have hmax := i.length_le_four
  refine List.prefix_iff_getElem?.2 fun k hk => ?_
  have hk' : k < i.length := length_encode i ▸ hk
  have hmem : k < 4 ∧ s.pc.toNat + k < memCells := ⟨by omega, by unfold memCells; omega⟩
  rw [State.window_getElem?, if_pos hmem, ← hcells k hk', List.getElem?_eq_getElem hk]

/-- Settles O7: `step_of_decode`, and `decode_eq_ok_iff` on the window. -/
theorem stepRunsTheDecodedInstruction : Obligations.StepRunsTheDecodedInstruction :=
  ⟨fun _ _ hh hd => step_of_decode hh hd,
    fun _ _ hh hwf hfit hcells =>
      step_of_decode hh (decode_eq_ok_iff.2 ⟨hwf, encode_prefix_window hfit hcells⟩)⟩

/-- Settles O40: the step is the decode fault, and `decode_quotes` says which cell a rejection names. -/
theorem decodeFaultsComeFirst : Obligations.DecodeFaultsComeFirst := by
  intro s r hh hr
  refine ⟨_, _, step_of_reject hh hr, ?_⟩
  obtain ⟨⟨hw, -⟩ | ⟨x, hx, hw | hw | hw⟩, -, -⟩ := decode_quotes hr
  · rw [hw]
    exact .inl ⟨rfl, rfl, rfl⟩
  · rw [hw]
    exact .inr (.inl ⟨x, rfl, rfl, rfl, hx⟩)
  · rw [hw]
    exact .inr (.inr (.inl ⟨x, rfl, rfl, rfl, hx⟩))
  · rw [hw]
    exact .inr (.inr (.inr ⟨x, rfl, rfl, rfl, hx⟩))

/-! ### The fetch sequence (R84, R87 to R89) -/

/-- The operands a row's format fetches one by one are assembled to what the row decodes from the window, or a fetch fails
in the state of the same decode fault. -/
theorem fetchOperands_cases {op : Cell} {f : Format} {dec : List Cell → Except Reject Instr}
    (row : OpcodeRow op f dec) {s : State} (h : s.pc.toNat < 32768) :
    (∃ r, dec s.window = .error r ∧ fetchOperands s.pc f (s.consume 1) = .error (s.decodeFault r)) ∨
    (∃ i operands, dec s.window = .ok i ∧ fetchOperands s.pc f (s.consume 1) = .ok operands ∧
      instrOf op.toNat operands = some i) := by
  cases row with
  | f0 i _ _ hseq => exact .inr ⟨_, _, rfl, rfl, hseq⟩
  | fs mk _ _ hseq =>
    simp only [fetchOperands, fetchS_eq h (show 1 < 4 by decide), decodeFS]
    cases srcAt s.window 1 with
    | error r => exact .inl ⟨r, rfl, rfl⟩
    | ok a => exact .inr ⟨_, _, rfl, rfl, hseq a⟩
  | fd mk _ _ hseq =>
    simp only [fetchOperands, fetchD_eq h (show 1 < 4 by decide), decodeFD]
    cases dstAt s.window 1 with
    | error r => exact .inl ⟨r, rfl, rfl⟩
    | ok d => exact .inr ⟨_, _, rfl, rfl, hseq d⟩
  | fds mk _ _ hseq =>
    simp only [fetchOperands, fetchD_eq h (show 1 < 4 by decide), decodeFDS]
    cases dstAt s.window 1 with
    | error r => exact .inl ⟨r, rfl, rfl⟩
    | ok d =>
      simp only [fetchS_eq h (show 2 < 4 by decide)]
      cases srcAt s.window 2 with
      | error r => exact .inl ⟨r, rfl, rfl⟩
      | ok b => exact .inr ⟨_, _, rfl, rfl, hseq d b⟩
  | fss mk _ _ hseq =>
    simp only [fetchOperands, fetchS_eq h (show 1 < 4 by decide), decodeFSS]
    cases srcAt s.window 1 with
    | error r => exact .inl ⟨r, rfl, rfl⟩
    | ok a =>
      simp only [fetchS_eq h (show 2 < 4 by decide)]
      cases srcAt s.window 2 with
      | error r => exact .inl ⟨r, rfl, rfl⟩
      | ok b => exact .inr ⟨_, _, rfl, rfl, hseq a b⟩
  | fdss mk _ _ hseq =>
    simp only [fetchOperands, fetchD_eq h (show 1 < 4 by decide), decodeFDSS]
    cases dstAt s.window 1 with
    | error r => exact .inl ⟨r, rfl, rfl⟩
    | ok d =>
      simp only [fetchS_eq h (show 2 < 4 by decide)]
      cases srcAt s.window 2 with
      | error r => exact .inl ⟨r, rfl, rfl⟩
      | ok b =>
        simp only [fetchS_eq h (show 3 < 4 by decide)]
        cases srcAt s.window 3 with
        | error r => exact .inl ⟨r, rfl, rfl⟩
        | ok c => exact .inr ⟨_, _, rfl, rfl, hseq d b c⟩

theorem State.consume_zero (s : State) : s.consume 0 = s := by
  simp [State.consume]

/-- Where no cell exists, fetching the opcode already takes the step's decode fault. -/
theorem stepBySequence_of_ge {s : State} (hh : s.halted = false) (h : memCells ≤ s.pc.toNat) :
    stepBySequence s = some (step s) := by
  have hd : decode s.window = .error ⟨.outOfCells, 0⟩ := by rw [State.window_of_ge h, decode_nil]
  rw [step_of_reject hh hd, State.decodeFault, State.consume_zero]
  simp [stepBySequence, fetch, hh, h, decodeCause, decodeInfo]

/-- Where the opcode cell exists, the sequence fetches what the decoder reads. -/
theorem stepBySequence_of_lt {s : State} (hh : s.halted = false) (h : s.pc.toNat < memCells) :
    stepBySequence s = some (step s) := by
  obtain ⟨op, rest, hw⟩ : ∃ op rest, s.window = op :: rest := ⟨_, _, State.window_of_lt h⟩
  have hfetch : fetch s.pc s = .ok (op, s.consume 1) := by
    have hzero := fetch_eq (k := 0) h (by decide)
    rw [State.consume_zero, hw] at hzero
    exact hzero
  have hdec : decode s.window = decodeOp op s.window := by rw [hw, decode_cons]
  by_cases hop : op.toNat ≤ 21
  · simp only [stepBySequence, hh, hfetch, if_neg (Nat.not_lt.2 hop)]
    obtain ⟨r, hd, hf⟩ | ⟨i, operands, hd, hf, hi⟩ := fetchOperands_cases (opcodeRow hop) h
    · rw [step_of_reject hh (hdec.trans hd), hf]
      rfl
    · rw [step_of_decode hh (hdec.trans hd), hf]
      simp [hi]
  · rw [step_of_reject hh (hdec.trans (decodeOp_of_illegal (by omega) _))]
    simp only [stepBySequence, hh, hfetch, if_pos (Nat.lt_of_not_le hop)]
    rfl

/-- Settles O8: no step in HALTED; otherwise by whether the opcode cell exists. -/
theorem stepIsTheFetchSequence : Obligations.StepIsTheFetchSequence := by
  intro s
  cases hh : s.halted with
  | true => simp [stepBySequence, hh]
  | false =>
    rcases Nat.lt_or_ge s.pc.toNat memCells with h | h
    · exact stepBySequence_of_lt hh h
    · exact stepBySequence_of_ge hh h

end Machine
end Sys2Proof
end

section
/-! The system instructions (40_system.md): the whole next state of `halt` and `noop`, in the model's own operations. -/

namespace Sys2Proof.Machine

/-- R110: past its one cell, and the halt flag set. -/
theorem exec_halt (s : State) : exec .halt s = .next (s.consume 1).stop := rfl

/-- R111: past its one cell. -/
theorem exec_noop (s : State) : exec .noop s = .next (s.consume 1) := rfl

/-- Settles O16: the two equations, with `State.consume` and `State.stop` read as record updates. -/
theorem haltAndNoopEffect : Obligations.HaltAndNoopEffect :=
  fun s => ⟨exec_halt s, exec_noop s⟩

end Sys2Proof.Machine
end

section
/-! The move and stack instructions (41_move_stack.md): the whole next state of `set`, `push` and `pop`, in the model's
own operations. -/

namespace Sys2Proof.Machine

/-- R120: past the three cells, and the destination holds the value. -/
theorem exec_set_of_value {s : State} {b : Operand} {v : Number} (d : Reg) (hb : s.value b = some v) :
    exec (.set d b) s = .next ((s.consume 3).setReg d v) :=
  congrArg Host.Outcome.next (State.unary_of_value hb id d)

/-- R209: on a full stack nothing is pushed. -/
theorem exec_push_of_full {s : State} {a : Operand} {v : Number} (ha : s.value a = some v)
    (hf : s.cfg.stackDepth = some s.stack.length) :
    exec (.push a) s = .next ((s.consume 2).raise s.pc .stackOverflow 0#16) := by
  have hfull : s.stackFull = true := State.stackFull_iff.2 hf
  simp [exec, execPush, State.withValue, ha, hfull]

theorem State.popped_of_append {s : State} {st : List Number} {r : Number} (hs : s.stack = st ++ [r]) :
    s.popped = { s with stack := st } := by
  simp [State.popped, hs]

/-- Settles O17: `set` is the one-register shape, with the value itself as the result. -/
theorem setEffect : Obligations.SetEffect :=
  fun _ d _ _ hb => exec_set_of_value d hb

/-- Settles O18, by whether the stack is full. -/
theorem pushEffect : Obligations.PushEffect :=
  fun _ _ _ ha => ⟨exec_push_of_value ha, exec_push_of_full ha⟩

/-- Settles O19, by whether the stack is empty. -/
theorem popEffect : Obligations.PopEffect := by
  refine ⟨fun s d st r hs => ?_, fun _ d hs => exec_pop_of_empty d hs⟩
  have hpop : (s.consume 2).popped = { s.consume 2 with stack := st } := State.popped_of_append hs
  rw [exec_pop_of_append d hs, hpop]
  rfl

end Sys2Proof.Machine
end

section
/-! The comparisons (42_compare.md): the whole next state of `eq` and `gt`, in the model's own operations. -/

namespace Sys2Proof.Machine

theorem truth_decide (p : Prop) [Decidable p] : truth (decide p) = if p then 1#15 else 0#15 := by
  simp [truth]

section
variable {s : State} {b c : Operand} {v w : Number}

/-- R130: numbers are equal exactly when their values are. -/
theorem exec_eq_of_values (d : Reg) (hb : s.value b = some v) (hc : s.value c = some w) :
    exec (.eq d b c) s = .next ((s.consume 4).setReg d (if v.toNat = w.toNat then 1#15 else 0#15)) := by
  rw [exec, execEq, State.binary_of_values hb hc, truth_decide]
  simp only [BitVec.toNat_inj]

/-- R131: the values compared as naturals, so unsigned. -/
theorem exec_gt_of_values (d : Reg) (hb : s.value b = some v) (hc : s.value c = some w) :
    exec (.gt d b c) s = .next ((s.consume 4).setReg d (if w.toNat < v.toNat then 1#15 else 0#15)) := by
  rw [exec, execGt, State.binary_of_values hb hc, truth_decide]

end

/-- Settles O20: the two equations, with `State.consume` and `State.setReg` read as record updates. -/
theorem compareEffect : Obligations.CompareEffect :=
  fun _ d _ _ _ _ hb hc => ⟨exec_eq_of_values d hb hc, exec_gt_of_values d hb hc⟩

end Sys2Proof.Machine
end

section
/-! The control transfers (43_control_transfer.md): the whole next state of `jmp`, `jt`, `jf`, `call` and `ret`, in the
model's own operations, and the way back from a call. -/

namespace Sys2Proof.Machine

section
variable {s : State} {a : Operand} {v : Number}

/-- Below the last cells the pc after `k` fetches does not wrap. -/
theorem State.consume_pc_toNat {k : Nat} (h : s.pc.toNat + k < 65536) :
    (s.consume k).pc.toNat = s.pc.toNat + k := by
  rw [State.consume_pc, BitVec.toNat_add, BitVec.toNat_ofNat, Nat.add_mod_mod, Nat.mod_eq_of_lt h]

/-- The return address that `call` pushes (R143), as a number. -/
theorem State.returnAddress_eq (h : s.pc.toNat + 2 < 32768) :
    (s.consume 2).pc.setWidth 15 = BitVec.ofNat 15 (s.pc.toNat + 2) := by
  apply BitVec.eq_of_toNat_eq
  rw [BitVec.toNat_setWidth, BitVec.toNat_ofNat, State.consume_pc_toNat (by omega)]

/-- Where `ipc + 2` is a number, only the stack decides (R143). -/
theorem exec_call_of_lt (ha : s.value a = some v) (hpc : s.pc.toNat + 2 < 32768) :
    exec (.call a) s = .next (
      if s.stackFull then (s.consume 2).raise s.pc .stackOverflow 0#16
      else ((s.consume 2).pushed (BitVec.ofNat 15 (s.pc.toNat + 2))).jump v) := by
  rw [exec_call_of_value ha, State.consume_pc_toNat (by omega), if_neg (show ¬ memCells ≤ _ from Nat.not_le.2 hpc),
    State.returnAddress_eq hpc]

/-- R143: the return address on the stack, and the pc at the target. -/
theorem exec_call_of_room (ha : s.value a = some v) (hpc : s.pc.toNat + 2 < 32768)
    (hf : s.cfg.stackDepth ≠ some s.stack.length) :
    exec (.call a) s = .next (((s.consume 2).pushed (BitVec.ofNat 15 (s.pc.toNat + 2))).jump v) := by
  have hfull : ¬ s.stackFull = true := fun h => hf (State.stackFull_iff.1 h)
  rw [exec_call_of_lt ha hpc, if_neg hfull]

/-- R213: there is no cell behind the call to come back to. -/
theorem exec_call_of_top (ha : s.value a = some v) (hpc : s.pc.toNat + 2 = 32768) :
    exec (.call a) s = .next ((s.consume 2).raise s.pc .linkAddressRange overrun) := by
  rw [exec_call_of_value ha, State.consume_pc_toNat (by omega), if_pos (show memCells ≤ _ from hpc.ge)]

/-- R209: on a full stack nothing is pushed and no jump is made. -/
theorem exec_call_of_full (ha : s.value a = some v) (hpc : s.pc.toNat + 2 < 32768)
    (hf : s.cfg.stackDepth = some s.stack.length) :
    exec (.call a) s = .next ((s.consume 2).raise s.pc .stackOverflow 0#16) := by
  rw [exec_call_of_lt ha hpc, if_pos (State.stackFull_iff.2 hf)]

end

/-- Settles O48: the call pushes `ipc + 2`, which is a number, and `ret` pops it. -/
theorem retAfterCallReturnsBehindTheCall : Obligations.RetAfterCallReturnsBehindTheCall := by
  intro s t u a v ha hpc hf hcall hu
  rw [exec_call_of_room ha hpc hf] at hcall
  cases hcall
  refine ⟨_, exec_ret_of_append hu, ?_, ?_, rfl⟩
  · rw [State.jump_pc, numCell_toNat, BitVec.toNat_ofNat]
    exact Nat.mod_eq_of_lt hpc
  · simp [hu]

/-- Settles O21: each jump's own equation, by whether the condition is zero. -/
theorem jumpEffect : Obligations.JumpEffect := by
  intro s a b v w ha hb
  refine ⟨exec_jmp_of_value ha, ?_, ?_⟩
  · rw [exec_jt_of_values ha hb]
    simp only [ne_eq, ← BitVec.toNat_inj, BitVec.toNat_zero]
    split <;> rfl
  · rw [exec_jf_of_values ha hb]
    simp only [← BitVec.toNat_inj, BitVec.toNat_zero]
    split <;> rfl

/-- Settles O22: the overrun pc is 32768 itself in the LinkAddressRange case. -/
theorem callEffect : Obligations.CallEffect := by
  refine fun s a v ha => ⟨exec_call_of_room ha, fun hpc => ?_, exec_call_of_full ha⟩
  have hover : (s.consume 2).pc = 32768#16 :=
    BitVec.eq_of_toNat_eq ((State.consume_pc_toNat (by omega)).trans hpc)
  have hstate : s.consume 2 = { s with pc := 32768#16 } := congrArg (fun p => { s with pc := p }) hover
  rw [exec_call_of_top ha hpc, hstate]
  rfl

/-- Settles O23, by whether the stack is empty. -/
theorem retEffect : Obligations.RetEffect := by
  refine ⟨fun s st r hs => ?_, fun s hs => exec_ret_of_empty hs⟩
  have hpop : (s.consume 1).popped = { s.consume 1 with stack := st } := State.popped_of_append hs
  rw [exec_ret_of_append hs, hpop]
  rfl

end Sys2Proof.Machine
end

section
/-! The ALU (44_alu.md): what its operations compute, and the whole next state of `add`, `mult`, `mod`, `and`, `or` and
`not`, in the model's own operations. -/

namespace Sys2Proof.Machine

/-! ### The operations' results (R157 to R159) -/

section
variable (v w : Number)

theorem aluAdd_toNat : (aluAdd v w).toNat = (v.toNat + w.toNat) % 32768 := BitVec.toNat_ofNat _ 15

theorem aluMult_toNat : (aluMult v w).toNat = (v.toNat * w.toNat) % 32768 := BitVec.toNat_ofNat _ 15

/-- The modular result is the 15-bit wrapping sum. -/
theorem aluAdd_eq : aluAdd v w = v + w := BitVec.eq_of_toNat_eq (aluAdd_toNat v w)

/-- The modular result is the 15-bit wrapping product. -/
theorem aluMult_eq : aluMult v w = v * w := BitVec.eq_of_toNat_eq (aluMult_toNat v w)

/-- A remainder is a number as it stands: `narrow` drops nothing. -/
theorem aluMod_toNat : (aluMod v w).toNat = v.toNat % w.toNat := by
  have hlt : v.toNat % w.toNat < 2 ^ 15 := (Nat.mod_le _ _).trans_lt v.isLt
  rw [aluMod, narrow, BitVec.toNat_ofNat, Nat.mod_eq_of_lt hlt]

/-- Clearing bit 15 of the 16-bit inverse leaves the 15-bit inverse. -/
theorem aluNot_eq : aluNot v = ~~~v := by
  have hlow : (~~~(numCell v)).setWidth 15 = ~~~v := by
    rw [BitVec.setWidth_not (by decide), numCell, BitVec.setWidth_setWidth_of_le v (by decide), BitVec.setWidth_eq]
  have hmask : (0x7FFF#16).setWidth 15 = BitVec.allOnes 15 := by decide
  rw [aluNot, BitVec.setWidth_and, hlow, hmask, BitVec.and_allOnes]

theorem aluNot_toNat : (aluNot v).toNat = 32767 - v.toNat := by
  rw [aluNot_eq, BitVec.toNat_not]

theorem aluNot_eq_xor : aluNot v = v ^^^ 0x7FFF#15 := by
  have hones : (0x7FFF#15 : Number) = BitVec.allOnes 15 := by decide
  rw [aluNot_eq, hones, BitVec.xor_allOnes]

theorem aluNot_aluNot : aluNot (aluNot v) = v := by
  rw [aluNot_eq, aluNot_eq, BitVec.not_not]

variable {n : Nat} (hn : 15 ≤ n)
include hn

/-- Wider wrapping addition has the same low 15 bits (R157). -/
theorem setWidth_add_setWidth : (v.setWidth n + w.setWidth n).setWidth 15 = aluAdd v w := by
  rw [BitVec.setWidth_add _ _ hn, BitVec.setWidth_setWidth_of_le v hn, BitVec.setWidth_setWidth_of_le w hn,
    BitVec.setWidth_eq, BitVec.setWidth_eq, aluAdd_eq]

/-- Wider wrapping multiplication has the same low 15 bits (R157). -/
theorem setWidth_mul_setWidth : (v.setWidth n * w.setWidth n).setWidth 15 = aluMult v w := by
  rw [BitVec.setWidth_mul _ _ hn, BitVec.setWidth_setWidth_of_le v hn, BitVec.setWidth_setWidth_of_le w hn,
    BitVec.setWidth_eq, BitVec.setWidth_eq, aluMult_eq]

end

/-- Division with remainder determines the remainder (R158). -/
theorem remainder_iff_eq_mod {n m x : Nat} (hm : 0 < m) : (x < m ∧ ∃ q, n = q * m + x) ↔ x = n % m := by
  constructor
  · rintro ⟨hx, q, rfl⟩
    rw [Nat.mul_add_mod_of_lt hx]
  · rintro rfl
    exact ⟨Nat.mod_lt n hm, n / m, (Nat.div_add_mod' n m).symm⟩

/-! ### The instructions, once their operands are read -/

section
variable {s : State} {b c : Operand} {v w : Number} (d : Reg)

/-- R150. -/
theorem exec_add_of_values (hb : s.value b = some v) (hc : s.value c = some w) :
    exec (.add d b c) s = .next ((s.consume 4).setReg d (aluAdd v w)) :=
  congrArg Host.Outcome.next (State.binary_of_values hb hc aluAdd d)

/-- R151. -/
theorem exec_mult_of_values (hb : s.value b = some v) (hc : s.value c = some w) :
    exec (.mult d b c) s = .next ((s.consume 4).setReg d (aluMult v w)) :=
  congrArg Host.Outcome.next (State.binary_of_values hb hc aluMult d)

/-- R153. -/
theorem exec_and_of_values (hb : s.value b = some v) (hc : s.value c = some w) :
    exec (.and d b c) s = .next ((s.consume 4).setReg d (v &&& w)) :=
  congrArg Host.Outcome.next (State.binary_of_values hb hc (· &&& ·) d)

/-- R154. -/
theorem exec_or_of_values (hb : s.value b = some v) (hc : s.value c = some w) :
    exec (.or d b c) s = .next ((s.consume 4).setReg d (v ||| w)) :=
  congrArg Host.Outcome.next (State.binary_of_values hb hc (· ||| ·) d)

/-- R155. -/
theorem exec_not_of_value (hb : s.value b = some v) :
    exec (.not d b) s = .next ((s.consume 3).setReg d (aluNot v)) :=
  congrArg Host.Outcome.next (State.unary_of_value hb aluNot d)

/-- R152, R207: only the divisor decides. -/
theorem exec_mod_of_values (hb : s.value b = some v) (hc : s.value c = some w) :
    exec (.mod d b c) s = .next (
      if w = 0#15 then (s.consume 4).raise s.pc .divideByZero 0#16
      else (s.consume 4).setReg d (aluMod v w)) := by
  rw [exec, execMod, State.withValue_of_value (by simpa using hb), State.withValue_of_value (by simpa using hc)]

/-- R155 read back: `not` of a register that holds an inverse gives the inverted number, in any register. -/
theorem exec_not_of_aluNot {t : State} (e : Reg) (ht : t.reg d = aluNot v) :
    ∃ u, exec (.not e (.register d)) t = .next u ∧ u.reg e = v := by
  have hd : t.value (.register d) = some (aluNot v) := congrArg some ht
  refine ⟨_, exec_not_of_value e hd, ?_⟩
  rw [State.reg_setReg, if_pos rfl, aluNot_aluNot]

end

/-- Settles O24: the ALU's results for the two equations, and the low 15 bits of the wider ones. -/
theorem addMultAreModular : Obligations.AddMultAreModular :=
  fun _ d _ _ v w hb hc =>
    ⟨⟨aluAdd v w, exec_add_of_values d hb hc, aluAdd_toNat v w, fun _ hn => setWidth_add_setWidth v w hn⟩,
      ⟨aluMult v w, exec_mult_of_values d hb hc, aluMult_toNat v w, fun _ hn => setWidth_mul_setWidth v w hn⟩⟩

/-- Settles O25, by whether the divisor is zero. -/
theorem modIsTheUniqueRemainder : Obligations.ModIsTheUniqueRemainder := by
  refine fun s d b c n m hb hc => ⟨fun hm => ⟨aluMod n m, ?_, fun x => ?_⟩, fun hm => ?_⟩
  · rw [exec_mod_of_values d hb hc, if_neg hm]
    rfl
  · rw [aluMod_toNat]
    exact remainder_iff_eq_mod (Nat.pos_of_ne_zero (BitVec.toNat_ne.1 hm))
  · rw [exec_mod_of_values d hb hc, if_pos hm]
    rfl

/-- Settles O26: the three equations; the second `not` reads the first one's destination. -/
theorem bitwiseInstructionsActBitByBit : Obligations.BitwiseInstructionsActBitByBit := by
  intro s d b c v w hb hc
  have hnot := exec_not_of_value d hb
  refine ⟨⟨v &&& w, exec_and_of_values d hb hc, fun _ => BitVec.getLsbD_and⟩,
    ⟨v ||| w, exec_or_of_values d hb hc, fun _ => BitVec.getLsbD_or⟩,
    ⟨aluNot v, hnot, aluNot_toNat v, aluNot_eq_xor v, fun t ht e => ?_⟩⟩
  rw [hnot] at ht
  cases ht
  refine exec_not_of_aluNot d e ?_
  rw [State.reg_setReg, if_pos rfl]

end Sys2Proof.Machine
end

section
/-! The memory instructions (45_memory_access.md): the whole next state of `rmem` and `wmem`, in the model's own
operations. -/

namespace Sys2Proof.Machine

/-- A cell below 32768 holds the number of its low 15 bits, and nothing more (R82). -/
theorem numCell_setWidth_of_lt {x : Cell} (h : x.toNat < 32768) : numCell (x.setWidth 15) = x := by
  have hcell := cell_classify x
  rwa [classify_of_number h] at hcell

/-- R212: a cell that holds no number is not loaded; it is the fault's information word. -/
theorem exec_rmem_of_ge {s : State} {b : Operand} {ea : Number} (d : Reg) (hb : s.value b = some ea)
    (hx : memCells ≤ (s.mem.read ea.toNat).toNat) :
    exec (.rmem d b) s = .next ((s.consume 3).raise s.pc .nonNumberLoad (s.mem.read ea.toNat)) := by
  have hea : ¬ memCells ≤ ea.toNat := Nat.not_le.2 ea.isLt
  rw [exec, execRmem, State.withValue_of_value (by simpa using hb), if_neg hea, if_pos hx]

/-- Settles O28: one store; reading it back at the address, and elsewhere, is `Memory.read_write`. -/
theorem wmemEffect : Obligations.WmemEffect := by
  refine fun s a b ea v hwf ha hb => ⟨s.mem.write ea.toNat (numCell v), exec_wmem_of_values ha hb, ?_, fun x hx => ?_⟩
  · rw [Memory.read_write hwf, if_pos rfl, numCell_toNat]
  · exact Memory.read_write_ne _ hx

/-- Settles O27, by whether the cell holds a number. -/
theorem rmemEffect : Obligations.RmemEffect := by
  refine fun s d b ea hb => ⟨fun hlt => ?_, exec_rmem_of_ge d hb⟩
  have hnum := numCell_setWidth_of_lt hlt
  refine ⟨(s.mem.read ea.toNat).setWidth 15, ?_, exec_rmem_of_numCell d hb hnum.symm⟩
  rw [← numCell_toNat, hnum]

end Sys2Proof.Machine
end

section
/-! The port instructions (46_io.md): what the host's script makes each port answer (R42, R43; log 5), and the next state
of `out` and `in` for each answer. -/

namespace Sys2Proof.Machine

/-! ### The ports' answers -/

section
variable {s : State}

/-- D14: the output port fails a transaction exactly when the host may fail and this is the one it fails. -/
theorem State.outAnswer_eq_failed_iff :
    s.outAnswer = .failed ↔ s.cfg.hostCanFail = true ∧ s.host.outFailAt = some s.outTrace.length := by
  simp [State.outAnswer]

theorem State.outAnswer_eq_ok_iff :
    s.outAnswer = .ok ↔ s.cfg.hostCanFail = false ∨ s.host.outFailAt ≠ some s.outTrace.length := by
  cases hf : s.cfg.hostCanFail <;> simp [State.outAnswer, hf]

/-- The converse of `inAnswer_value`. -/
theorem State.inAnswer_of_value {v : Number} (hv : s.host.input[s.inPos]? = some v)
    (hmax : v.toNat ≤ s.cfg.inMax.toNat) : s.inAnswer = some (.value v) := by
  simp [State.inAnswer, hv, hmax]

variable (hused : s.host.input.length ≤ s.inPos)
include hused

theorem State.inAnswer_of_silent (he : s.host.inputEnd = .silent) : s.inAnswer = none := by
  simp [State.inAnswer, hused, he]

theorem State.inAnswer_of_eof (he : s.host.inputEnd = .eof) : s.inAnswer = some .eof := by
  simp [State.inAnswer, hused, he]

theorem State.inAnswer_of_failed (he : s.host.inputEnd = .failed) (hf : s.cfg.hostCanFail = true) :
    s.inAnswer = some .failed := by
  simp [State.inAnswer, hused, he, hf]

end

/-! ### The instructions, once the port has answered -/

section
variable {s : State} {a : Operand} {v : Number} (d : Reg)

/-- R180. -/
theorem exec_out_of_ok (ha : s.value a = some v) (ho : s.outAnswer = .ok) :
    exec (.out a) s = .next ((s.consume 2).emitted v) := by
  rw [exec, execOut, State.withValue_of_value (by simpa using ha), ho]

/-- R217: the host fails the output transaction. -/
theorem exec_out_of_failed (ha : s.value a = some v) (ho : s.outAnswer = .failed) :
    exec (.out a) s = .next ((s.consume 2).raise s.pc .hostIOFailure 0#16) := by
  rw [exec, execOut, State.withValue_of_value (by simpa using ha), ho]

/-- R181. -/
theorem exec_inp_of_value (hi : s.inAnswer = some (.value v)) :
    exec (.inp d) s = .next ((s.consume 2).inputTaken.setReg d v) := by
  rw [exec, execIn, hi]

/-- R214: end of input. -/
theorem exec_inp_of_eof (hi : s.inAnswer = some .eof) :
    exec (.inp d) s = .next ((s.consume 2).raise s.pc .inputEOF 0#16) := by
  rw [exec, execIn, hi]

/-- R217: the host fails the input transaction. -/
theorem exec_inp_of_failed (hi : s.inAnswer = some .failed) :
    exec (.inp d) s = .next ((s.consume 2).raise s.pc .hostIOFailure 0#16) := by
  rw [exec, execIn, hi]

/-- R229: an `in` without an answer holds (log 6). -/
theorem exec_inp_of_none (hi : s.inAnswer = none) : exec (.inp d) s = .next s := by
  rw [exec, execIn, hi]

end

/-- Settles O29, by the output port's answer. -/
theorem outEffect : Obligations.OutEffect :=
  fun _ _ _ ha => ⟨fun hok => exec_out_of_ok ha (State.outAnswer_eq_ok_iff.2 hok),
    fun hcan hat => exec_out_of_failed ha (State.outAnswer_eq_failed_iff.2 ⟨hcan, hat⟩)⟩

/-- Settles O30, by the input port's answer. -/
theorem inEffect : Obligations.InEffect :=
  fun _ d => ⟨fun _ hv hmax => exec_inp_of_value d (State.inAnswer_of_value hv hmax),
    fun hused he => exec_inp_of_eof d (State.inAnswer_of_eof hused he),
    fun hused he hcan => exec_inp_of_failed d (State.inAnswer_of_failed hused he hcan)⟩

/-- Settles O31: a silent port gives no answer, and without one `in` holds. -/
theorem inHoldsUntilTheHostAnswers : Obligations.InHoldsUntilTheHostAnswers :=
  fun _ d hused he => exec_inp_of_none d (State.inAnswer_of_silent hused he)

end Sys2Proof.Machine
end

section
/-! The decode faults (60_exceptions.md R204 to R206, R211). A decoder row fetches operand after operand, so a rejection is
that of the first operand it does not accept: `firstReject` says so for every format, and each fault of a step is then
one cell looked at in the window. -/

namespace Sys2Proof

open Machine (Format formatOf)

/-! ### The first operand that is not accepted (R87, R88, R90) -/

/-- The operand kinds of a format, in cell order (R80). -/
def Machine.Format.kinds : Format → List Kind
  | .f0 => []
  | .fs => [.src]
  | .fd => [.dst]
  | .fds => [.dst, .src]
  | .fss => [.src, .src]
  | .fdss => [.dst, .src, .src]

/-- The rejection with which an operand fetch of this kind answers the cell at offset `k`, if it does not accept it. -/
def Kind.rejectAt (cells : List Cell) (k : Nat) : Kind → Option Reject
  | .src =>
    match srcAt cells k with
    | .ok _ => none
    | .error r => some r
  | .dst =>
    match dstAt cells k with
    | .ok _ => none
    | .error r => some r

/-- The first rejection among operands of these kinds, the first of them at offset `k`. -/
def firstReject (cells : List Cell) : Nat → List Kind → Option Reject
  | _, [] => none
  | k, kd :: kds => (kd.rejectAt cells k).or (firstReject cells (k + 1) kds)

theorem Kind.rejectAt_src_of_invalid {cells : List Cell} {k : Nat} {x : Cell} (hx : cells[k]? = some x)
    (hbad : 32776 ≤ x.toNat) : Kind.src.rejectAt cells k = some ⟨.invalidOperand x, k + 1⟩ := by
  rw [Kind.rejectAt, srcAt_of_invalid hx hbad]

theorem Kind.rejectAt_dst_of_bad {cells : List Cell} {k : Nat} {x : Cell} (hx : cells[k]? = some x)
    (hbad : x.toNat < 32768 ∨ 32776 ≤ x.toNat) :
    Kind.dst.rejectAt cells k = some ⟨.invalidDestination x, k + 1⟩ := by
  rw [Kind.rejectAt, dstAt_of_bad hx hbad]

theorem Kind.rejectAt_of_none {cells : List Cell} {k : Nat} (kd : Kind) (hx : cells[k]? = none) :
    kd.rejectAt cells k = some ⟨.outOfCells, k⟩ := by
  cases kd with
  | src => rw [Kind.rejectAt, srcAt_of_none hx]
  | dst => rw [Kind.rejectAt, dstAt_of_none hx]

/-- An operand fetch looks at its own cell only. -/
theorem Kind.rejectAt_congr {cells cells' : List Cell} {k : Nat} (kd : Kind) (h : cells[k]? = cells'[k]?) :
    kd.rejectAt cells k = kd.rejectAt cells' k := by
  cases kd with
  | src => simp only [Kind.rejectAt, srcAt, h]
  | dst => simp only [Kind.rejectAt, dstAt, h]

/-- Where the cells before operand `j` are those of an accepted sequence, the first rejection is that of operand `j`: the
induction follows the fetches. -/
theorem firstReject_of_agree {cells cells' : List Cell} {kinds : List Kind} {n j : Nat} {kd : Kind} {r : Reject}
    (hok : firstReject cells' n kinds = none) (hagree : ∀ k, k < j → cells[n + k]? = cells'[n + k]?)
    (hkd : kinds[j]? = some kd) (hr : kd.rejectAt cells (n + j) = some r) : firstReject cells n kinds = some r := by
  induction kinds generalizing n j with
  | nil => cases hkd
  | cons kd' kds ih =>
    cases j with
    | zero =>
      have hfirst : kd'.rejectAt cells n = some r := Option.some.inj hkd ▸ hr
      rw [firstReject, hfirst, Option.some_or]
    | succ j =>
      obtain ⟨hfirst, hrest⟩ := Option.or_eq_none_iff.1 hok
      rw [firstReject, kd'.rejectAt_congr (k := n) (hagree 0 j.succ_pos), hfirst, Option.none_or]
      refine ih hrest (fun k hk => ?_) hkd (by rwa [Nat.add_right_comm])
      rw [Nat.add_right_comm]
      exact hagree (k + 1) (Nat.succ_lt_succ hk)

/-- A row rejects with the first rejection among its operands. -/
theorem OpcodeRow.eq_error_iff {op : Cell} {f : Format} {dec : List Cell → Except Reject Instr} (row : OpcodeRow op f dec)
    (cells : List Cell) (r : Reject) : dec cells = .error r ↔ firstReject cells 1 f.kinds = some r := by
  cases row with
  | f0 i => simp [firstReject, Format.kinds]
  | fs mk =>
    simp only [firstReject, Format.kinds, Kind.rejectAt, decodeFS]
    cases srcAt cells 1 <;> simp [bind, Except.bind, pure, Except.pure]
  | fd mk =>
    simp only [firstReject, Format.kinds, Kind.rejectAt, decodeFD]
    cases dstAt cells 1 <;> simp [bind, Except.bind, pure, Except.pure]
  | fds mk =>
    simp only [firstReject, Format.kinds, Kind.rejectAt, decodeFDS]
    cases dstAt cells 1 <;> cases srcAt cells 2 <;> simp [bind, Except.bind, pure, Except.pure]
  | fss mk =>
    simp only [firstReject, Format.kinds, Kind.rejectAt, decodeFSS]
    cases srcAt cells 1 <;> cases srcAt cells 2 <;> simp [bind, Except.bind, pure, Except.pure]
  | fdss mk =>
    simp only [firstReject, Format.kinds, Kind.rejectAt, decodeFDSS]
    cases dstAt cells 1 <;> cases srcAt cells 2 <;> cases srcAt cells 3 <;>
      simp [bind, Except.bind, pure, Except.pure]

/-- An instruction's encoding begins with an opcode whose format has the instruction's operands. -/
theorem encode_eq_cons (i : Instr) :
    ∃ op operands, encode i = op :: operands ∧ op.toNat ≤ 21 ∧ (formatOf op.toNat).kinds = i.kinds := by
  cases i <;> exact ⟨_, _, rfl, by decide, rfl⟩

/-- Cells that begin with an instruction's opcode are rejected with the first rejection among its operands. -/
theorem decode_eq_error_iff {i : Instr} {cells : List Cell} (hop : cells[0]? = (encode i)[0]?) {r : Reject} :
    decode cells = .error r ↔ firstReject cells 1 i.kinds = some r := by
  obtain ⟨op, operands, henc, hle, hkinds⟩ := encode_eq_cons i
  rw [henc] at hop
  cases cells with
  | nil => cases hop
  | cons x rest =>
    obtain rfl : x = op := Option.some.inj hop
    rw [decode_cons, ← hkinds]
    exact (opcodeRow hle).eq_error_iff _ r

/-- No operand of a well-formed instruction is rejected in its own encoding. -/
theorem firstReject_encode {i : Instr} (hwf : i.wf = true) : firstReject (encode i) 1 i.kinds = none := by
  refine Option.eq_none_iff_forall_ne_some.2 fun r hr => ?_
  have hok : decode (encode i) = .ok i := decode_eq_ok_iff.2 ⟨hwf, List.prefix_rfl⟩
  rw [(decode_eq_error_iff rfl).2 hr] at hok
  cases hok

/-- The cells of a well-formed instruction up to operand `j`, and operand `j` rejected: that is the decoder's rejection. -/
theorem decode_error_of_operand {i : Instr} {cells : List Cell} {j : Nat} {kd : Kind} {r : Reject} (hwf : i.wf = true)
    (hkd : i.kinds[j]? = some kd) (hcells : ∀ k, k ≤ j → cells[k]? = (encode i)[k]?)
    (hr : kd.rejectAt cells (j + 1) = some r) : decode cells = .error r :=
  (decode_eq_error_iff (hcells 0 j.zero_le)).2 <|
    firstReject_of_agree (firstReject_encode hwf) (fun k hk => hcells (1 + k) (by omega)) hkd (by rwa [Nat.add_comm])

/-- An operand position is one of the three after the opcode. -/
theorem Instr.operand_lt_three {i : Instr} {j : Nat} {kd : Kind} (h : i.kinds[j]? = some kd) : j < 3 := by
  have hlt : j < i.kinds.length := (List.getElem?_eq_some_iff.1 h).1
  have hlen : 1 + i.kinds.length ≤ 4 := i.length_le_four
  omega

/-- A destination is always operand a (R206). -/
theorem Instr.destination_first {i : Instr} {j : Nat} (h : i.kinds[j]? = some .dst) : j = 0 := by
  have htail (f : Format) : Kind.dst ∉ f.kinds.tail := by
    cases f <;> decide
  obtain ⟨op, -, -, -, hkinds⟩ := encode_eq_cons i
  cases j with
  | zero => rfl
  | succ j =>
    rw [← hkinds, ← List.getElem?_tail] at h
    exact absurd (List.mem_of_getElem? h) (htail _)

namespace Machine

/-! ### The faulting step (R203) -/

section
variable {s : State}

theorem State.window_getElem?_of_lt {k : Nat} (hk : k < 4) (hpc : s.pc.toNat + k < 32768) :
    s.window[k]? = some (s.mem.read (s.pc.toNat + k)) := by
  rw [State.window_getElem?, if_pos ⟨hk, hpc⟩]

/-- A step that meets operand `j` of an instruction and rejects it, the cells before it being the instruction's. -/
theorem step_of_operand_reject {i : Instr} {j : Nat} {kd : Kind} {r : Reject} (hh : s.halted = false)
    (hwf : i.wf = true) (hkd : i.kinds[j]? = some kd) (hpc : s.pc.toNat + j < 32768)
    (hcells : ∀ k, k ≤ j → (encode i)[k]? = some (s.mem.read (s.pc.toNat + k)))
    (hr : kd.rejectAt s.window (j + 1) = some r) : step s = .next (s.decodeFault r) := by
  have hj : j < 3 := Instr.operand_lt_three hkd
  refine step_of_reject hh (decode_error_of_operand hwf hkd (fun k hk => ?_) hr)
  rw [hcells k hk, State.window_getElem?_of_lt (by omega) (by omega)]

end

/-- Settles O12: the window begins with the opcode cell, which no row of the opcode map accepts. -/
theorem illegalOpcodeIsRaised : Obligations.IllegalOpcodeIsRaised := by
  intro s hh hpc hop
  have hd : decode s.window = .error ⟨.illegalOpcode (s.mem.read s.pc.toNat), 1⟩ := by
    rw [State.window_of_lt hpc]
    exact decode_illegalOpcode_iff.2 hop
  exact step_of_reject hh hd

/-- Settles O13: the window shows the cell to `FetchS`; which instructions have a source is read off the shapes. -/
theorem invalidOperandIsRaised : Obligations.InvalidOperandIsRaised := by
  refine ⟨fun i j s hwf hh hkd hpc hcells hbad => ?_, fun i => ?_⟩
  · have hj : j < 3 := Instr.operand_lt_three hkd
    have hx : s.window[j + 1]? = some (s.mem.read (s.pc.toNat + 1 + j)) := by
      rw [State.window_getElem?_of_lt (by omega) (by omega), Nat.add_assoc, Nat.add_comm 1 j]
    exact step_of_operand_reject hh hwf hkd (by omega) hcells (Kind.rejectAt_src_of_invalid hx hbad)
  · cases i <;> simp [Instr.kinds]

/-- Settles O14: the destination is the first operand fetched, so its rejection is the step's, whatever follows it. -/
theorem invalidDestinationIsRaised : Obligations.InvalidDestinationIsRaised := by
  refine ⟨fun i s hh hkd hpc hop hbad => ?_, fun i j => Instr.destination_first, fun i => ?_⟩
  · have hx : s.window[1]? = some (s.mem.read (s.pc.toNat + 1)) := State.window_getElem?_of_lt (by decide) hpc
    have hfirst : firstReject s.window 1 i.kinds = some ⟨.invalidDestination (s.mem.read (s.pc.toNat + 1)), 2⟩ := by
      obtain ⟨kds, hkinds⟩ := List.head?_eq_some_iff.1 hkd
      rw [hkinds, firstReject, Kind.rejectAt_dst_of_bad hx hbad, Option.some_or]
    have hhead : s.window[0]? = (encode i)[0]? := by
      rw [← List.head?_eq_getElem?, ← List.head?_eq_getElem?, hop, State.window_of_lt (Nat.lt_of_succ_lt hpc),
        List.head?_cons]
    exact step_of_reject hh ((decode_eq_error_iff hhead).2 hfirst)
  · cases i <;> simp [Instr.kinds]

/-- Settles O15: at the opcode the window is empty; at an operand the window ends at offset `32768 - ipc`, where the
instruction still has one. -/
theorem fetchPastTheTopIsRaised : Obligations.FetchPastTheTopIsRaised := by
  refine ⟨fun s hh hpc => ?_, fun i s hwf hh hlt hlong hcells => ?_⟩
  · have hd : decode s.window = .error ⟨.outOfCells, 0⟩ := by
      rw [State.window_of_ge (by rw [hpc]; decide), decode_nil]
    rw [step_of_reject hh hd, State.decodeFault, State.consume_zero, State.raise, hpc]
    rfl
  · obtain ⟨j, hj⟩ : ∃ j, s.pc.toNat + (j + 1) = 32768 := ⟨32767 - s.pc.toNat, by omega⟩
    have hkd : j < i.kinds.length := by
      rw [Instr.length] at hlong
      omega
    have hnone : s.window[j + 1]? = none := by
      rw [State.window_getElem?, if_neg (by unfold memCells; omega)]
    have hover : (s.consume (j + 1)).pc = 32768#16 :=
      BitVec.eq_of_toNat_eq ((State.consume_pc_toNat (by omega)).trans hj)
    have hstate : s.consume (j + 1) = { s with pc := 32768#16 } := congrArg (fun p => { s with pc := p }) hover
    rw [step_of_operand_reject hh hwf (List.getElem?_eq_getElem hkd) (by omega) (fun k hk => hcells k (by omega))
      (Kind.rejectAt_of_none _ hnone), State.decodeFault, hstate]
    rfl

end Machine
end Sys2Proof
end

section
/-! Raising a fault (60_exceptions.md R203): what a faulting instruction or step leaves unchanged, and which faults each
instruction can raise once it is decoded (R201, R207 to R214, R217). -/

namespace Sys2Proof.Machine

/-! ### Precise faults (R203) -/

/-- All an instruction can do to the fault record: leave it alone, or raise one fault past its own cells. -/
theorem exec_record_cases {i : Instr} {s t : State} (h : exec i s = .next t) :
    (t.faultCause = s.faultCause ∧ t.faultPc = s.faultPc ∧ t.faultInfo = s.faultInfo ∧
      (t.halted = s.halted ∨ i = .halt ∨ i = .ret ∧ s.stack = [])) ∨
    ∃ c x, c ≠ .loadError ∧ t = (s.consume i.length).raise s.pc c x := by
  cases exec_cases h with
  | raise c x hc _ => exact .inr ⟨c, x, hc, rfl⟩
  | halt hi => exact .inl ⟨rfl, rfl, rfl, .inr hi⟩
  | _ => exact .inl ⟨rfl, rfl, rfl, .inl rfl⟩

/-- Settles O37, by `exec_record_cases`. -/
theorem faultRecordFrame : Obligations.FaultRecordFrame := by
  intro i s t h
  obtain hkept | ⟨c, x, hc, rfl⟩ := exec_record_cases h
  · exact .inl hkept
  · exact .inr ⟨c.code, x, Cause.code_mem_recordCodes hc, c.code_ne_zero, rfl⟩

/-- A step that records a fault has raised it past the cells it fetched, all of which exist. -/
theorem step_raise_of_fault {s t : State} (hs : s.faultCause = 0#8) (h : step s = .next t) (ht : t.faultCause ≠ 0#8) :
    ∃ k c x, k ≤ 4 ∧ k ≤ s.window.length ∧ c ≠ .loadError ∧ t = (s.consume k).raise s.pc c x := by
  obtain ⟨-, ⟨r, hr, rfl⟩ | ⟨i, hi, hx⟩⟩ := step_cases h
  · obtain ⟨-, hfour, hused⟩ := decode_quotes hr
    exact ⟨_, _, _, hfour, hused, decodeCause_ne_loadError r.why, rfl⟩
  · obtain ⟨hc, -⟩ | ⟨c, x, hc, rfl⟩ := exec_record_cases hx
    · exact absurd (hc.trans hs) ht
    · exact ⟨_, c, x, i.length_le_four, decode_length_le hi, hc, rfl⟩

/-- Settles O38: the step is a `State.raise`, and the pc has passed cells of the window only. -/
theorem faultsArePrecise : Obligations.FaultsArePrecise := by
  intro s t hpc hs h ht
  obtain ⟨k, c, x, hfour, hk, hc, rfl⟩ := step_raise_of_fault hs h ht
  have hadvance : ((s.consume k).raise s.pc c x).pc.toNat = s.pc.toNat + k := State.consume_pc_toNat (by omega)
  exact ⟨rfl, Cause.code_mem_recordCodes hc, by omega, by omega, State.consume_pc_le hpc hk⟩

/-! ### Execute faults (R201, R207 to R214, R217) -/

/-- The execute faults: which instruction can raise which cause, and what the parameters must allow for it. -/
inductive ExecuteFault (s : State) : Instr → Cause → Prop where
  | mod (d : Reg) (b c : Operand) : ExecuteFault s (.mod d b c) .divideByZero
  | pop (d : Reg) : ExecuteFault s (.pop d) .stackUnderflow
  | push (a : Operand) (h : s.cfg.stackDepth ≠ none) : ExecuteFault s (.push a) .stackOverflow
  | callFull (a : Operand) (h : s.cfg.stackDepth ≠ none) : ExecuteFault s (.call a) .stackOverflow
  | callTop (a : Operand) : ExecuteFault s (.call a) .linkAddressRange
  | rmem (d : Reg) (b : Operand) : ExecuteFault s (.rmem d b) .nonNumberLoad
  | outFailed (a : Operand) (h : s.cfg.hostCanFail = true) : ExecuteFault s (.out a) .hostIOFailure
  | inpEof (d : Reg) : ExecuteFault s (.inp d) .inputEOF
  | inpFailed (d : Reg) (h : s.cfg.hostCanFail = true) : ExecuteFault s (.inp d) .hostIOFailure

/-- A result of `i` from `s` that raises nothing, or one of `i`'s execute faults. -/
def ExecuteFaultsOnly (s : State) (i : Instr) (t : State) : Prop :=
  t.faultCause = s.faultCause ∨ ∃ c, ExecuteFault s i c ∧ t.faultCause = c.code

section
variable {s : State}

theorem State.stackDepth_ne_none_of_full (h : s.stackFull = true) : s.cfg.stackDepth ≠ none := by
  rw [State.stackFull_iff.1 h]
  nofun

theorem hostCanFail_of_inAnswer_failed (h : s.inAnswer = some .failed) : s.cfg.hostCanFail = true := by
  unfold State.inAnswer at h
  split at h
  · split at h <;> cases h
  · split at h
    · cases h
    · cases h
    · split at h
      · assumption
      · cases h

/-- A well-formed source raises nothing (R87). -/
theorem ExecuteFaultsOnly.withValue {i : Instr} {u : State} {ipc : Pc} {x : Operand} {k : Number → State}
    (hx : x.wf = true) (hk : ∀ v, ExecuteFaultsOnly s i (k v)) : ExecuteFaultsOnly s i (u.withValue ipc x k) := by
  obtain ⟨v, hv⟩ := State.exists_value_of_wf (s := u) hx
  rw [State.withValue_of_value hv]
  exact hk v

/-- The faults of `exec`, instruction by instruction. -/
theorem exec_executeFaultsOnly {i : Instr} {t : State} (hwf : i.wf = true) (h : exec i s = .next t) :
    ExecuteFaultsOnly s i t := by
  have unary {j : Instr} (f : Number → Number) (d : Reg) {b : Operand} (hb : b.wf = true) :
      ExecuteFaultsOnly s j (s.unary f d b) := .withValue hb fun _ => .inl rfl
  have binary {j : Instr} (f : Number → Number → Number) (d : Reg) {b c : Operand} (hbc : (b.wf && c.wf) = true) :
      ExecuteFaultsOnly s j (s.binary f d b c) := by
    obtain ⟨hb, hc⟩ := Bool.and_eq_true_iff.1 hbc
    exact .withValue hb fun _ => .withValue hc fun _ => .inl rfl
  cases i with
  | halt => cases h; exact .inl rfl
  | noop => cases h; exact .inl rfl
  | set d b => cases h; exact unary _ d hwf
  | not d b => cases h; exact unary _ d hwf
  | eq d b c => cases h; exact binary _ d hwf
  | gt d b c => cases h; exact binary _ d hwf
  | add d b c => cases h; exact binary _ d hwf
  | mult d b c => cases h; exact binary _ d hwf
  | and d b c => cases h; exact binary _ d hwf
  | or d b c => cases h; exact binary _ d hwf
  | mod d b c =>
    cases h
    obtain ⟨hb, hc⟩ := Bool.and_eq_true_iff.1 hwf
    refine .withValue hb fun _ => .withValue hc fun _ => ?_
    split
    · exact .inr ⟨_, .mod d b c, rfl⟩
    · exact .inl rfl
  | push a =>
    cases h
    refine .withValue hwf fun _ => ?_
    split
    · next hfull => exact .inr ⟨_, .push a (State.stackDepth_ne_none_of_full hfull), rfl⟩
    · exact .inl rfl
  | pop d =>
    cases h
    split
    · exact .inr ⟨_, .pop d, rfl⟩
    · exact .inl rfl
  | jmp a => cases h; exact .withValue hwf fun _ => .inl rfl
  | jt a b =>
    cases h
    obtain ⟨ha, hb⟩ := Bool.and_eq_true_iff.1 hwf
    refine .withValue ha fun _ => ?_
    split
    · exact .withValue hb fun _ => .inl rfl
    · exact .inl rfl
  | jf a b =>
    cases h
    obtain ⟨ha, hb⟩ := Bool.and_eq_true_iff.1 hwf
    refine .withValue ha fun _ => ?_
    split
    · exact .inl rfl
    · exact .withValue hb fun _ => .inl rfl
  | call a =>
    cases h
    refine .withValue hwf fun _ => ?_
    split
    · exact .inr ⟨_, .callTop a, rfl⟩
    · split
      · next hfull => exact .inr ⟨_, .callFull a (State.stackDepth_ne_none_of_full hfull), rfl⟩
      · exact .inl rfl
  | ret =>
    cases h
    split <;> exact .inl rfl
  | rmem d b =>
    cases h
    refine .withValue hwf fun ea => ?_
    rw [if_neg (show ¬ memCells ≤ ea.toNat from Nat.not_le.2 ea.isLt)]
    split
    · exact .inr ⟨_, .rmem d b, rfl⟩
    · exact .inl rfl
  | wmem a b =>
    cases h
    obtain ⟨ha, hb⟩ := Bool.and_eq_true_iff.1 hwf
    refine .withValue ha fun ea => .withValue hb fun _ => ?_
    rw [if_neg (show ¬ memCells ≤ ea.toNat from Nat.not_le.2 ea.isLt)]
    exact .inl rfl
  | out a =>
    cases h
    refine .withValue hwf fun _ => ?_
    split
    · exact .inl rfl
    · next hfailed =>
      obtain ⟨hcan, -⟩ := State.outAnswer_eq_failed_iff.1 hfailed
      exact .inr ⟨_, .outFailed a hcan, rfl⟩
  | inp d =>
    cases h
    split
    · exact .inl rfl
    · exact .inl rfl
    · exact .inr ⟨_, .inpEof d, rfl⟩
    · next hfailed => exact .inr ⟨_, .inpFailed d (hostCanFail_of_inAnswer_failed hfailed), rfl⟩

end

/-- Settles O39: the list of `ExecuteFault`, with the causes' codes. -/
theorem executeFaultsOfEachInstruction : Obligations.ExecuteFaultsOfEachInstruction := by
  intro i s t hwf hs h
  obtain hkept | ⟨c, hc, ht⟩ := exec_executeFaultsOnly hwf h
  · exact .inl (hkept.trans hs)
  · right
    cases hc with
    | mod d b c => exact .inl ⟨ht, d, b, c, rfl⟩
    | pop d => exact .inr (.inl ⟨ht, d, rfl⟩)
    | push a hdepth => exact .inr (.inr (.inl ⟨ht, hdepth, .inl ⟨a, rfl⟩⟩))
    | callFull a hdepth => exact .inr (.inr (.inl ⟨ht, hdepth, .inr ⟨a, rfl⟩⟩))
    | inpEof d => exact .inr (.inr (.inr (.inl ⟨ht, d, rfl⟩)))
    | outFailed a hcan => exact .inr (.inr (.inr (.inr (.inl ⟨ht, hcan, .inl ⟨a, rfl⟩⟩))))
    | inpFailed d hcan => exact .inr (.inr (.inr (.inr (.inl ⟨ht, hcan, .inr ⟨d, rfl⟩⟩))))
    | rmem d b => exact .inr (.inr (.inr (.inr (.inr (.inl ⟨ht, d, b, rfl⟩)))))
    | callTop a => exact .inr (.inr (.inr (.inr (.inr (.inr ⟨ht, a, rfl⟩)))))

/-! ### The host's report (R31, R215) -/

theorem State.runState_of_running {s : State} (hh : s.halted = false) : s.runState = .running := by
  simp [State.runState, hh]

theorem State.runState_of_cleanHalt {s : State} (hh : s.halted = true) (hc : s.faultCause = 0#8) :
    s.runState = .cleanHalt := by
  simp [State.runState, hh, hc]

theorem State.runState_of_fault {s : State} (hh : s.halted = true) (hc : s.faultCause ≠ 0#8) :
    s.runState = .faulted := by
  simp [State.runState, hh, hc]

/-- The kind is the quotient by 16 (R201). -/
theorem faultKind_toNat (code : BitVec 8) : (faultKind code).toNat = code.toNat / 16 := by
  have := code.isLt
  rw [faultKind, BitVec.extractLsb'_toNat, Nat.shiftRight_eq_div_pow]
  omega

/-- Settles O54, by the run state; the host's code for a fault is one more than a number below 255. -/
theorem exitCodeTellsCleanHaltFromFault : Obligations.ExitCodeTellsCleanHaltFromFault := by
  refine ⟨fun s hh => ?_, fun s hh hc => ?_, fun s hh hc => ?_, faultKind_toNat⟩
  · rw [State.exitCode, State.runState_of_running hh]
  · rw [State.exitCode, State.runState_of_cleanHalt hh hc]
  · have hlt := (Config.exitCodeLessOne s.faultCause).isLt
    refine ⟨(Config.exitCodeLessOne s.faultCause).val + 1, ?_, by omega, by omega⟩
    rw [State.exitCode, State.runState_of_fault hh hc]

end Sys2Proof.Machine
end

section
/-! Reset and progress (70_reset_and_hazards.md): a running machine always steps (R253), and nothing of the state before
a reset is left but the parameters and the host's script (R240). -/

namespace Sys2Proof.Machine

/-- Settles O9: cells that do not decode give a decode fault, which is a next state (R203), and every instruction answers
a next state (`exec_next`). -/
theorem runningMachineHasANextState : Obligations.RunningMachineHasANextState := by
  intro s hrun
  cases hd : decode s.window with
  | error r => exact ⟨s.decodeFault r, step_of_reject hrun hd⟩
  | ok i =>
    obtain ⟨t, ht⟩ := exec_next i s
    exact ⟨t, (step_of_decode hrun hd).trans ht⟩

/-- Reset reads nothing of the state but the parameters and the host's script. -/
theorem State.afterReset_congr {s t : State} (hcfg : s.cfg = t.cfg) (hhost : s.host = t.host) (image : List Cell) :
    s.afterReset image = t.afterReset image := by
  rw [State.afterReset, State.afterReset, hcfg, hhost]

/-- Settles O52, by `State.afterReset_congr` and what reset leaves. -/
theorem resetDiscardsTheState : Obligations.ResetDiscardsTheState := by
  intro s t image hcfg hhost
  exact ⟨State.afterReset_congr hcfg hhost image, State.boot_halted _ _ _, State.boot_mem _ _ _⟩

end Sys2Proof.Machine
end
